-- ==== Sys2Proof/Word.lean ====
section
/-! DEFINITION. The words CH3VID moves: nibbles, bytes, samples, coordinates (00_scope.md R7, 20_memory.md R41). -/

namespace Sys2Proof

/-- Four bits: a level code or a line-type code (R7, R9). -/
abbrev Nibble := BitVec 4

/-- One byte of `FB` or `VTM` (R21). -/
abbrev Byte := BitVec 8

/-- One opaque 32-bit sample (R41). -/
abbrev Sample := BitVec 32

/-- A pixel coordinate operand, 16 bits two's complement (R63). -/
abbrev Coord := BitVec 16

end Sys2Proof
end

