-- ==== Sys2Proof/Config.lean ====
section
/-! DEFINITION. The configuration record `Cfg` of 00_scope.md R5, and the free values the spec leaves open. -/

namespace Sys2Proof

/-- VideoStandard, numbered in enumeration order: 0 is NTSC, 1 is PAL (30_encoding.md R73). -/
inductive Std where
  | ntsc
  | pal
  deriving DecidableEq, Repr

/-- The well-formedness conditions W1 to W7 of R6, by name: what `Refuse(IllFormedConfig(Wk))` reports (R172). -/
inductive WCond where
  | w1 | w2 | w3 | w4 | w5 | w6 | w7
  deriving DecidableEq, Repr

/-- The fields of `Cfg` that have one value per standard: the columns NTSC and PAL of R5 (R77; log 20).
All durations are in samples. -/
structure Profile where
  /-- `L`: transmission buffer length, samples per scan line. -/
  l : Nat
  /-- `TOTAL`: line slots per frame. -/
  total : Nat
  /-- `VTMLEN`: bytes in the Vertical Timing Map. -/
  vtmlen : Nat
  /-- `VTM`: the Vertical Timing Map bytes (10_state.md R25). -/
  vtm : List Byte
  /-- `SHORT`: short sync pulse. -/
  short : Nat
  /-- `LONG`: long interval. -/
  long : Nat
  /-- `NORMAL`: horizontal sync pulse. -/
  normal : Nat
  /-- `SERR`: serration pulse, used when `USE_SERR`. -/
  serr : Nat
  /-- `BURST`: colourburst on an active line. -/
  burst : Nat
  /-- `FBH`: framebuffer rows per half. -/
  fbh : Nat
  /-- `GAP_LS`: black gap between the two long pulses of `LS`. -/
  gapLs : Nat
  /-- `GAP_BK`: black gap after sync on a `BK` line. -/
  gapBk : Nat
  /-- `BURST_BK`: colourburst on a `BK` line. -/
  burstBk : Nat
  /-- `GAP_ACT`: black gap after sync on an `ACT` line. -/
  gapAct : Nat
  /-- `BLANK_ACT`: the fixed blanking gap before active video. -/
  blankAct : Nat
  /-- `USE_SERR`: transition lines use the serration pulse. -/
  useSerr : Bool
  /-- `EOF_WHITE_TAIL`: `EOF` ends in a white-level tail. -/
  eofWhiteTail : Bool
  /-- `GRAY_TOP`: `BK` fills with gray while `PIXLINE = 0`. -/
  grayTop : Bool
  /-- `FBW`: framebuffer width in double-density pixels. -/
  fbw : Nat
  deriving DecidableEq, Repr

/-- The configuration `Cfg` (R5): one profile per standard and the fields common to both. It is a
parameter of the block, fixed for a run (R28); `P` is the number of rows of `wt` (log 19). -/
structure Cfg where
  ntsc : Profile
  pal : Profile
  /-- `N`: transmission pool depth. -/
  n : Nat
  /-- `WT`: the Waveform Table, rows of sixteen samples (40_waveform_table_and_fill.md R80). -/
  wt : List (Vector Sample 16)
  /-- `LV_SYNC`. -/
  lvSync : Nat
  /-- `LV_BLACK`. -/
  lvBlack : Nat
  /-- `LV_GRAY`. -/
  lvGray : Nat
  /-- `LV_WHITE`. -/
  lvWhite : Nat
  /-- `LV_BURST`. -/
  lvBurst : Nat
  /-- `DD_BASE`: first double-density colour code. -/
  ddBase : Nat
  /-- `DD_WHITE`: double-density white colour code. -/
  ddWhite : Nat
  /-- `MAXCOL`: largest valid colour code. -/
  maxCol : Nat
  /-- `DD_BIT`: which bit of a pixel's 2-bit field double density uses. -/
  ddBit : Nat
  deriving DecidableEq, Repr

/-- Free value: byte `a` of `FB` as the `k`-th successful `INIT` finds it, "any `FBSIZE` bytes"
(45_framebuffer_arbiter_and_host.md R153, 93_implementation_defined.md U3; log 8). DESIGN CHOICE, safe. -/
opaque Config.freeByte : (k a : Nat) → Byte

/-- Free value: sample `i` of buffer `b` as the `k`-th successful `INIT` finds it, "any `N*L` samples"
(R153, R193, U4; log 8). DESIGN CHOICE, safe. -/
opaque Config.freeSample : (k b i : Nat) → Sample

/-- Free value: the 32-bit result of `GET_WIDTH` or `GET_HEIGHT` for an `FBW` or `FBH` of `n >= 2^32`, which no
rule refuses and no 32-bit result can hold (R63, R159, R162; log 31). DESIGN CHOICE, safe. -/
opaque Config.wideQuery : (n : Nat) → BitVec 32

/-- Free value: whether the feeder moves before the DMA agent at the `k`-th point where the run holds no
scheduled turn and both may move (20_memory.md R50, U17; log 6). DESIGN CHOICE, safe. -/
opaque Config.feederFirst : (k : Nat) → Bool

end Sys2Proof
end

