-- ==== Sys2Proof/Syntax.lean ====
section
/-! DEFINITION. The instructions: one constructor for each of the 19 rows of spec/opcode_table.json, and the encoded
items they are decoded from (30_encoding.md R60 to R64). -/

namespace Sys2Proof

/-- The instructions of the opcode table: seven line instructions (format `LT`, R62), nine host commands
(format `HC`, R63), three framebuffer writes (format `PX`, R64). -/
inductive Instr where
  /-- `SS`, ShortSync (R101). -/
  | ss
  /-- `LS`, LongSync (R102). -/
  | ls
  /-- `BK`, Black (R103). -/
  | bk
  /-- `S2L`, ShortToLong (R104). -/
  | s2l
  /-- `L2S`, LongToShort (R105). -/
  | l2s
  /-- `ACT`, ActiveLine (R106). -/
  | act
  /-- `EOF`, EndOfFrame (R110). -/
  | eof
  /-- `INIT(std)` with the environment's `alloc_ok` (R153). -/
  | init (std : Std) (allocOk : Bool)
  /-- `DEINIT` (R155). -/
  | deinit
  /-- `START` (R156). -/
  | start
  /-- `STOP` (R157). -/
  | stop
  /-- `TACK(x, y, col)` (R135). -/
  | tack (x y : Coord) (col : Byte)
  /-- `GET_FRAME` (R158). -/
  | getFrame
  /-- `GET_WIDTH` (R159). -/
  | getWidth
  /-- `GET_HEIGHT` (R162). -/
  | getHeight
  /-- `GET_BACK` (R163). -/
  | getBack
  /-- `PIXSD(x, y, c)`: single-density write of level code `c` (R137). -/
  | pixsd (x y : Coord) (c : Nibble)
  /-- `PIXDD0(x, y)`: double-density black (R138). -/
  | pixdd0 (x y : Coord)
  /-- `PIXDD1(x, y)`: double-density white (R139). -/
  | pixdd1 (x y : Coord)
  deriving DecidableEq, Repr

/-- What the main line presents on the command port: the 4-bit code and the operand fields of R63. A
command with fewer operands ignores the rest. -/
structure Command where
  cmd : BitVec 4
  std : BitVec 1
  allocOk : BitVec 1
  x : Coord
  y : Coord
  col : Byte
  deriving DecidableEq, Repr

/-- An encoded item, by where it comes from: "a decoder always knows the length from where the item comes
from, never from its bits" (R60). A `PX` item carries the coordinates of its `TACK`. -/
inductive Item where
  /-- A nibble of `VTM` (format `LT`). -/
  | line (code : Nibble)
  /-- A host command (format `HC`). -/
  | command (c : Command)
  /-- The colour operand of a `TACK` (format `PX`). -/
  | pixel (x y : Coord) (col : Byte)
  deriving DecidableEq, Repr

end Sys2Proof
end

