-- ==== Sys2Proof/Decode.lean ====
section
/-! DEFINITION. Decoding the three formats, the encoder, the assembler of line programs, and the slots of a Vertical
Timing Map (30_encoding.md R60 to R79, 41_vertical_timing_lookup.md R91). -/

namespace Sys2Proof

/-! ### Bit fields of a byte -/

/-- The low nibble `b[3:0]` (R7). -/
def lowNibble (b : Byte) : Nibble := b.extractLsb' 0 4

/-- The high nibble `b[7:4]` (R7). -/
def highNibble (b : Byte) : Nibble := b.extractLsb' 4 4

/-- The byte with the given low and high nibbles (R61, R74). -/
def packNibbles (low high : Nibble) : Byte := high ++ low

/-! ### Operand fields -/

/-- `std`: 0 is NTSC, 1 is PAL (R73). -/
def Std.ofBit (b : BitVec 1) : Std := if b = 0#1 then .ntsc else .pal

/-- The bit of a standard (R73). -/
def Std.toBit : Std → BitVec 1
  | .ntsc => 0#1
  | .pal => 1#1

/-! ### Decoding -/

/-- Why an item is no instruction. -/
inductive DecodeError where
  /-- A line-type code of 7 to 15 (R70). -/
  | reservedLine (code : Nibble)
  /-- A command code of 9 to 15 (R71). -/
  | reservedCommand (cmd : BitVec 4)
  /-- A colour code of 18 to 255 (R71). -/
  | invalidColour (col : Byte)
  deriving DecidableEq, Repr

/-- Format `LT`: the opcode map of R62; 7 to 15 are reserved (R70). -/
def decodeLine (code : Nibble) : Option Instr :=
  match code.toNat with
  | 0 => some .ss
  | 1 => some .ls
  | 2 => some .bk
  | 3 => some .s2l
  | 4 => some .l2s
  | 5 => some .act
  | 6 => some .eof
  | _ => none

/-- Format `HC`: the command codes of R63; 9 to 15 are reserved (R71). -/
def decodeCommand (c : Command) : Option Instr :=
  match c.cmd.toNat with
  | 0 => some (.init (Std.ofBit c.std) (c.allocOk = 1#1))
  | 1 => some .deinit
  | 2 => some .start
  | 3 => some .stop
  | 4 => some (.tack c.x c.y c.col)
  | 5 => some .getFrame
  | 6 => some .getWidth
  | 7 => some .getHeight
  | 8 => some .getBack
  | _ => none

/-- Format `PX`: `0000cccc` is a single-density write, 16 black, 17 white; 18 to 255 are invalid (R64, R71). -/
def decodePixel (x y : Coord) (col : Byte) : Option Instr :=
  if highNibble col = 0#4 then some (.pixsd x y (lowNibble col))
  else if col = 16#8 then some (.pixdd0 x y)
  else if col = 17#8 then some (.pixdd1 x y)
  else none

/-- Decoding of an item, total, rejecting by name. -/
def decode : Item → Except DecodeError Instr
  | .line code =>
    match decodeLine code with
    | some i => .ok i
    | none => .error (.reservedLine code)
  | .command c =>
    match decodeCommand c with
    | some i => .ok i
    | none => .error (.reservedCommand c.cmd)
  | .pixel x y col =>
    match decodePixel x y col with
    | some i => .ok i
    | none => .error (.invalidColour col)

/-! ### Encoding -/

/-- A command with the given code and every operand field 0. -/
def bareCommand (cmd : BitVec 4) : Command :=
  { cmd := cmd, std := 0#1, allocOk := 0#1, x := 0#16, y := 0#16, col := 0#8 }

/-- The item an instruction is encoded as; operand fields it ignores are 0 (R62, R63, R64). -/
def encode : Instr → Item
  | .ss => .line 0#4
  | .ls => .line 1#4
  | .bk => .line 2#4
  | .s2l => .line 3#4
  | .l2s => .line 4#4
  | .act => .line 5#4
  | .eof => .line 6#4
  | .init std allocOk =>
    .command { bareCommand 0#4 with std := std.toBit, allocOk := BitVec.ofBool allocOk }
  | .deinit => .command (bareCommand 1#4)
  | .start => .command (bareCommand 2#4)
  | .stop => .command (bareCommand 3#4)
  | .tack x y col => .command { bareCommand 4#4 with x := x, y := y, col := col }
  | .getFrame => .command (bareCommand 5#4)
  | .getWidth => .command (bareCommand 6#4)
  | .getHeight => .command (bareCommand 7#4)
  | .getBack => .command (bareCommand 8#4)
  | .pixsd x y c => .pixel x y (packNibbles c 0#4)
  | .pixdd0 x y => .pixel x y 16#8
  | .pixdd1 x y => .pixel x y 17#8

/-- The item with every operand field its command ignores set to 0 (R63: "a command with fewer operands
ignores the rest"). -/
def Item.canonical : Item → Item
  | .command c =>
    match c.cmd.toNat with
    | 0 => .command { bareCommand c.cmd with std := c.std, allocOk := c.allocOk }
    | 4 => .command { bareCommand c.cmd with x := c.x, y := c.y, col := c.col }
    | _ => .command (bareCommand c.cmd)
  | item => item

/-! ### Line programs: the Vertical Timing Map -/

/-- The code of slot `s`: byte `s >> 1`, the high nibble when `s` is odd, else the low one (R66, R91). -/
def slotCode (vtm : List Byte) (s : Nat) : Option Nibble :=
  (vtm[s >>> 1]?).map fun b => if s % 2 = 1 then highNibble b else lowNibble b

/-- All codes of a table in slot order, two a byte, the padding nibble included (R42, R93). -/
def slotCodes (vtm : List Byte) : List Nibble :=
  vtm.flatMap fun b => [lowNibble b, highNibble b]

/-- Slot `2i` into the low nibble and slot `2i+1` into the high nibble of byte `i`; an odd count is padded
with `EOF` (6) (R78). -/
def packSlots : List Nibble → List Byte
  | [] => []
  | [a] => [packNibbles a 6#4]
  | a :: b :: rest => packNibbles a b :: packSlots rest

/-- The `LT` code of a line instruction (R62). -/
def lineCode (i : Instr) : Option Nibble :=
  match encode i with
  | .line code => some code
  | _ => none

/-- The assembler of R78: a line program to the bytes of its table; none when an item is no line
instruction. -/
def assemble (program : List Instr) : Option (List Byte) :=
  (program.mapM lineCode).map packSlots

/-- The table with the code of slot `s` replaced (used only by `State.withFetchWord`). -/
def patchSlot (vtm : List Byte) (s : Nat) (code : Nibble) : List Byte :=
  vtm.modify (s >>> 1) fun b =>
    if s % 2 = 1 then packNibbles (lowNibble b) code else packNibbles code (highNibble b)

/-! ### Words of the opcode table -/

/-- The item a table word stands for. A word of spec/opcode_table.json carries no format, and the formats
overlap (R60), so the first format that gives the word an instruction is taken, in the order `LT`, `HC`,
`PX` (log 15, DESIGN CHOICE); operands outside the word are 0. -/
def tableItem (nbits w : Nat) : Option Item :=
  if 2 ^ nbits ≤ w ∨ 256 ≤ w then none
  else if w < 16 ∧ (decodeLine (BitVec.ofNat 4 w)).isSome then some (.line (BitVec.ofNat 4 w))
  else if w < 16 ∧ (decodeCommand (bareCommand (BitVec.ofNat 4 w))).isSome then
    some (.command (bareCommand (BitVec.ofNat 4 w)))
  else some (.pixel 0#16 0#16 (BitVec.ofNat 8 w))

/-- The instruction the decoder reads from a word of the opcode table (log 15). -/
def decodeTableWord (nbits w : Nat) : Option Instr :=
  match tableItem nbits w with
  | some item =>
    match decode item with
    | .ok i => some i
    | .error _ => none
  | none => none

end Sys2Proof
end

