-- ==== Sys2Proof/WellFormed.lean ====
section
/-! DEFINITION. Which instructions may stand where (30_encoding.md R60, R61, R78). Every operand has the width of its
field, so an instruction alone is never ill formed; what can be ill formed is its place. The conditions W1 to W7 on a
configuration are in Machine/Profiles.lean. -/

namespace Sys2Proof

/-- The instruction is a line instruction, format `LT`: only these stand in a line program (R61, R62). -/
def Instr.isLine : Instr → Bool
  | .ss | .ls | .bk | .s2l | .l2s | .act | .eof => true
  | .init _ _ | .deinit | .start | .stop | .tack _ _ _ | .getFrame | .getWidth | .getHeight | .getBack
  | .pixsd _ _ _ | .pixdd0 _ _ | .pixdd1 _ _ => false

/-- The instruction is a host command, format `HC`: only these are presented on the command port (R63). -/
def Instr.isCommand : Instr → Bool
  | .init _ _ | .deinit | .start | .stop | .tack _ _ _ | .getFrame | .getWidth | .getHeight | .getBack => true
  | .ss | .ls | .bk | .s2l | .l2s | .act | .eof | .pixsd _ _ _ | .pixdd0 _ _ | .pixdd1 _ _ => false

/-- The instruction is a decoding of `TACK`, format `PX`: "never written by a client" (R64, R79). -/
def Instr.isPixel : Instr → Bool
  | .pixsd _ _ _ | .pixdd0 _ _ | .pixdd1 _ _ => true
  | .ss | .ls | .bk | .s2l | .l2s | .act | .eof | .init _ _ | .deinit | .start | .stop | .tack _ _ _
  | .getFrame | .getWidth | .getHeight | .getBack => false

/-- The place an item has agrees with the instruction's format. -/
def Item.wellFormedFor : Item → Instr → Bool
  | .line _, i => i.isLine
  | .command _, i => i.isCommand
  | .pixel _ _ _, i => i.isPixel

/-- A line program holds line instructions only (R78). -/
def programWellFormed (program : List Instr) : Bool := program.all Instr.isLine

/-- A command's code is one of the nine of R63; 9 to 15 are reserved (R71). -/
def Command.wellFormed (c : Command) : Bool := decide (c.cmd.toNat ≤ 8)

/-- A colour code a `TACK` gives a meaning to, with the source's `MAXCOL` (R64). -/
def colourWellFormed (col : Byte) : Bool := decide (col.toNat ≤ 17)

end Sys2Proof
end

