-- ==== Sys2Proof/Machine/Profiles.lean ====
section
/-! DEFINITION. What the configuration fixes: the derived quantities of 00_scope.md R5, the well-formedness conditions
W1 to W7 of R6, the default profiles, and the two default line programs (41_vertical_timing_lookup.md R96, R97). -/

namespace Sys2Proof

/-! ### Derived quantities (R5) -/

/-- `FBW2`: single-density width, and active-video samples per line. -/
def Profile.fbw2 (p : Profile) : Nat := p.fbw / 2

/-- `STRIDE`: bytes per framebuffer row. -/
def Profile.stride (p : Profile) : Nat := p.fbw / 4

/-- `HALF`: bytes per framebuffer half. -/
def Profile.half (p : Profile) : Nat := p.stride * p.fbh

/-- `FBSIZE`: bytes of the framebuffer. -/
def Profile.fbsize (p : Profile) : Nat := 2 * p.half

/-- `HDR`: samples before active video on an `ACT` line. -/
def Profile.hdr (p : Profile) : Nat := p.normal + p.gapAct + p.burst + p.blankAct

/-- `REST(k)`: the samples left on the line after `k` have been written (R8). -/
def Profile.rest (p : Profile) (k : Nat) : Nat := p.l - k

/-- The profile of a standard: `STD` selects TimingProfile and table (R72, R153). -/
def Cfg.profile (c : Cfg) : Std → Profile
  | .ntsc => c.ntsc
  | .pal => c.pal

/-- `P`: the ring length of the Waveform Table in rows (R80; log 19). -/
def Cfg.ring (c : Cfg) : Nat := c.wt.length

/-- The level code `LV_SYNC` as a column of `WT` (R82). -/
def Cfg.sync (c : Cfg) : Nibble := BitVec.ofNat 4 c.lvSync

/-- The level code `LV_BLACK` as a column of `WT` (R82). -/
def Cfg.black (c : Cfg) : Nibble := BitVec.ofNat 4 c.lvBlack

/-- The level code `LV_GRAY` as a column of `WT` (R82). -/
def Cfg.gray (c : Cfg) : Nibble := BitVec.ofNat 4 c.lvGray

/-- The level code `LV_WHITE` as a column of `WT` (R82). -/
def Cfg.white (c : Cfg) : Nibble := BitVec.ofNat 4 c.lvWhite

/-- The level code `LV_BURST` as a column of `WT` (R82). -/
def Cfg.colourburst (c : Cfg) : Nibble := BitVec.ofNat 4 c.lvBurst

/-! ### Well-formedness (R6) -/

/-- The codes of the slots `0 .. TOTAL-1`. -/
def Profile.slots (p : Profile) : List Nibble := (slotCodes p.vtm).take p.total

/-- W1: `FBW` is a positive multiple of 8. -/
def Profile.w1 (p : Profile) : Bool := decide (0 < p.fbw ∧ p.fbw % 8 = 0)

/-- W2: `FBH >= 1`, `N >= 2`, `P >= 1`. -/
def Cfg.w2 (c : Cfg) (p : Profile) : Bool := decide (1 ≤ p.fbh ∧ 2 ≤ c.n ∧ 1 ≤ c.ring)

/-- W3: every fixed segment list fits the line. -/
def Profile.w3 (p : Profile) : Bool :=
  decide (2 * p.short + p.long ≤ p.l ∧ 2 * p.long + p.gapLs ≤ p.l ∧
    p.normal + p.gapBk + p.burstBk ≤ p.l ∧ p.hdr + p.fbw2 ≤ p.l) &&
  if p.useSerr then
    decide (p.short + p.long + p.serr ≤ p.l ∧ p.serr + p.normal + p.short ≤ p.l)
  else
    decide (p.short + 2 * p.long ≤ p.l ∧ p.long + 2 * p.short ≤ p.l)

/-- W4: `VTM` has exactly `VTMLEN` bytes, `VTMLEN = ceil(TOTAL / 2)`, and every nibble of it is in 0..6. -/
def Profile.w4 (p : Profile) : Bool :=
  decide (p.vtm.length = p.vtmlen ∧ p.vtmlen = (p.total + 1) / 2) &&
  (slotCodes p.vtm).all fun code => decide (code.toNat ≤ 6)

/-- W5: slot `TOTAL - 1` holds `EOF` (6) and no earlier slot does. -/
def Profile.w5 (p : Profile) : Bool :=
  decide (1 ≤ p.total) && decide (p.slots[p.total - 1]? = some 6#4) &&
  (p.slots.take (p.total - 1)).all fun code => decide (code ≠ 6#4)

/-- One slot of the walk behind W6: the number of `ACT` slots since the last `SS` slot, none before the
first `SS`. -/
def rowsAfter (rows : Option Nat) (code : Nibble) : Option Nat :=
  if code = 0#4 then some 0
  else if code = 5#4 then rows.map (· + 1)
  else rows

/-- The walk behind W6 over the slots from the start of the frame. -/
def rowsSeen (codes : List Nibble) : Option Nat := codes.foldl rowsAfter none

/-- The `ACT` slots among these codes come after an `SS`, at most `fbh` of them since the last `SS`; `rows`
is the walk so far. -/
def rowsFit (fbh : Nat) : Option Nat → List Nibble → Bool
  | _, [] => true
  | rows, code :: codes =>
    (if code = 5#4 then
      match rows with
      | none => false
      | some k => decide (k < fbh)
    else true) && rowsFit fbh (rowsAfter rows code) codes

/-- W6: between any slot holding `SS` and the next slot holding `SS` or `EOF`, at most `FBH` slots hold
`ACT`; and no `ACT` slot precedes the first `SS` slot (log 27). -/
def Profile.w6 (p : Profile) : Bool := rowsFit p.fbh none p.slots

/-- W7: every level code `LV_*` is in 0..15, `DD_BIT` is 0 or 1. -/
def Cfg.w7 (c : Cfg) : Bool :=
  decide (c.lvSync ≤ 15 ∧ c.lvBlack ≤ 15 ∧ c.lvGray ≤ 15 ∧ c.lvWhite ≤ 15 ∧ c.lvBurst ≤ 15 ∧ c.ddBit ≤ 1)

/-- The conditions in their order, each with its verdict on the configuration for `std`. -/
def Cfg.conditions (c : Cfg) (std : Std) : List (WCond × Bool) :=
  [(.w1, (c.profile std).w1), (.w2, c.w2 (c.profile std)), (.w3, (c.profile std).w3), (.w4, (c.profile std).w4),
   (.w5, (c.profile std).w5), (.w6, (c.profile std).w6), (.w7, c.w7)]

/-- The first condition of R6 that the configuration for `std` breaks, none when it is well formed (log 24). -/
def Cfg.violation (c : Cfg) (std : Std) : Option WCond :=
  ((c.conditions std).find? fun w => !w.2).map Prod.fst

/-! ### The default line programs and profiles (R5, R96, R97) -/

/-- The default NTSC table: the 263 bytes R96 prints, as runs. -/
def ntscVtm : List Byte :=
  [0x00#8, 0x10#8, 0x11#8, 0x00#8, 0x20#8] ++ List.replicate 10 0x22#8 ++ [0x52#8] ++
  List.replicate 109 0x55#8 ++ [0x25#8] ++ List.replicate 5 0x22#8 ++
  [0x00#8, 0x30#8, 0x11#8, 0x04#8, 0x00#8] ++ List.replicate 10 0x22#8 ++ [0x52#8] ++
  List.replicate 109 0x55#8 ++ [0x25#8] ++ List.replicate 5 0x22#8 ++ [0x66#8]

/-- The default PAL table: the 313 bytes R97 prints, as runs. -/
def palVtm : List Byte :=
  [0x11#8, 0x04#8, 0x20#8] ++ List.replicate 14 0x22#8 ++ List.replicate 132 0x55#8 ++
  List.replicate 6 0x22#8 ++ [0x00#8, 0x13#8, 0x01#8, 0x00#8] ++ List.replicate 14 0x22#8 ++
  List.replicate 132 0x55#8 ++ List.replicate 6 0x22#8 ++ [0x00#8, 0x66#8]

/-- The NTSC column of R5: the spec's own defaults (D5, D6, D7, D18; log 21). -/
def ntscProfile : Profile where
  l := 159
  total := 525
  vtmlen := 263
  vtm := ntscVtm
  short := 6
  long := 73
  normal := 12
  serr := 67
  burst := 4
  fbh := 220
  gapLs := 12
  gapBk := 2
  burstBk := 4
  gapAct := 1
  blankAct := 11
  useSerr := true
  eofWhiteTail := true
  grayTop := true
  fbw := 232

/-- The PAL column of R5: the spec's own defaults (D5, D6, D7, D18; log 21). -/
def palProfile : Profile where
  l := 160
  total := 625
  vtmlen := 313
  vtm := palVtm
  short := 5
  long := 75
  normal := 10
  serr := 0
  burst := 10
  fbh := 264
  gapLs := 5
  gapBk := 2
  burstBk := 4
  gapAct := 1
  blankAct := 11
  useSerr := false
  eofWhiteTail := false
  grayTop := true
  fbw := 232

/-- A row of a Waveform Table whose sample at level `c` is `base + c`. -/
def rampRow (base : Nat) : Vector Sample 16 :=
  ⟨((List.range 16).map fun c => BitVec.ofNat 32 (base + c)).toArray, by simp⟩

/-- The Waveform Table of 95_test_vectors.md section 2.2: `WT[p][c] = 16*p + c`, five rows. -/
def rampTable : List (Vector Sample 16) := (List.range 5).map fun p => rampRow (16 * p)

/-- The configuration at power-on: the defaults of R5. The fields R5 leaves OPEN (`N`, `WT`, `LV_*`) have the
values of TCFG (95_test_vectors.md 2.2): DESIGN CHOICE, unsafe (log 2); no statement rests on them. -/
def Cfg.default : Cfg where
  ntsc := ntscProfile
  pal := palProfile
  n := 2
  wt := rampTable
  lvSync := 12
  lvBlack := 0
  lvGray := 7
  lvWhite := 15
  lvBurst := 13
  ddBase := 16
  ddWhite := 17
  maxCol := 17
  ddBit := 0

end Sys2Proof
end

