-- ==== Sys2Proof/Machine/State.lean ====
section
/-! DEFINITION. The architectural state of 10_state.md as plain data, the outcomes' reasons, and the power-on reset. -/

namespace Sys2Proof.Machine

open Sys2Proof

/-- The reasons of the spec's `Fault(reason)`, complete (60_exceptions.md R171). Each is recorded in
`STATUS.FAULT` and the machine goes on: a next state, not an outcome `fault` (log 11). -/
inductive FaultReason where
  /-- `LOOKUP(SLN)` returned a code in 7..15 (R99). Raised by the feeder step. -/
  | illegalLineType (sln : BitVec 16) (code : Nibble)
  /-- `PIXLINE >= FBH` at the entry of `ACT` (R109). Raised by `ACT`. -/
  | rowOutOfRange (pixline : BitVec 16)
  deriving DecidableEq, Repr

/-- The model's own stops, for states no run from reset reaches (log 13). All are safe: the model claims
nothing after them. -/
inductive Fault where
  /-- A line instruction without buffers: "enabling the interrupt without valid buffers is undefined behavior"
  (U6). Raised by the feeder and by a line instruction in state `UNINIT`. Safe. -/
  | noBuffers
  /-- `SLN` outside `0 .. TOTAL-1` at a fetch: the domain of `LOOKUP` ends there (R17, R92). Raised by the
  feeder step. Safe. -/
  | fetchRange
  /-- An access outside `WT`, `TX` or `FB` (R83 `require WP < L`, R47: no such byte). Raised by `EMIT`, `ACT`,
  the pixel writes and the DMA step. Safe. -/
  | noSuchCell
  /-- `WP` is not `L` at the end of a line instruction (R124 `assert WP = L`). Raised by the feeder step.
  Safe. -/
  | lineLength
  deriving DecidableEq, Repr

/-- The reasons of the spec's `Refuse(reason)` (R172), and the host's word for an instruction without a
meaning. All are safe: claims are void from a refusal on. -/
inductive Refusal where
  /-- An instruction without a meaning in this model. No arm of `exec` answers with it. Safe. -/
  | notModelled (mnemonic : String)
  /-- `INIT` while `INITED = 1`, any other command while `INITED = 0` (R165). Raised by every host command. Safe. -/
  | wrongState
  /-- A command code of 9 to 15 (R71). Raised by the command port. Safe. -/
  | unknownCommand (cmd : BitVec 4)
  /-- The configuration for `std` breaks this condition of R6 (R153). Raised by `INIT`. Safe. -/
  | illFormedConfig (w : WCond)
  deriving DecidableEq, Repr

/-- What a host command returns (30_encoding.md R63): the status of `INIT`, or the 32-bit value of a query. -/
inductive Reply where
  | status (b : BitVec 1)
  | value (v : BitVec 32)
  deriving DecidableEq, Repr

/-- One turn of the schedule (20_memory.md R50): a DMA step, a feeder step, or a host command as the command
port carries it. The model's own type (log 5). -/
inductive Turn where
  | dma
  | feeder
  | host (c : Command)
  deriving DecidableEq, Repr

/-- What has a value only between a successful `INIT` and the next `DEINIT` (R16, R195): the registers of
10_state.md, `STD`, and the two stores. -/
structure Session where
  /-- `CTRL.STD` (R19). -/
  std : Std
  /-- `SLN`, the program counter: a signed slot number (R11, R17). -/
  sln : BitVec 16
  /-- `FRAME` (R12). -/
  frame : BitVec 32
  /-- `PIXLINE` (R13). -/
  pixline : BitVec 16
  /-- `CUR`, the Waveform Table cursor (R14). -/
  cur : Nat
  /-- `WSEL`, the write-half select (R29). -/
  wsel : BitVec 1
  /-- `BUF`, the buffer being refilled (R15). -/
  buf : Nat
  /-- `WP`, the samples written into it so far (R15). -/
  wp : Nat
  /-- `TXI`, the buffer the DMA agent transmits next (R26). -/
  txi : Nat
  /-- `FB`, the framebuffer: one cell for each of its bytes (R22; log 9). -/
  fb : List Host.Cell
  /-- `TX`, the transmission pool: `N` buffers of `L` samples (R23). -/
  tx : List (List Sample)
  deriving DecidableEq, Repr

/-- The whole machine. `CTRL.INITED` is 1 exactly when there is a session (R165; log 3). -/
structure State where
  /-- The configuration `Cfg`, fixed for a run: no step writes it (R28; log 1). -/
  cfg : Cfg
  /-- The session: none in `UNINIT`, where no register has a value (R16). -/
  session : Option Session
  /-- `CTRL.IRQ_EN` (R19). -/
  irqEn : Bool
  /-- `CTRL.BCAST` (R19). -/
  bcast : Bool
  /-- `STATUS.GLITCH` (R20). -/
  glitch : Bool
  /-- `STATUS.FAULT` with its reason (R20, R171). -/
  fault : Option FaultReason
  /-- `PEND`, the completion events not yet serviced, oldest first (R26). -/
  pend : List Nat
  /-- `OUT`, every sample transmitted since `INIT` (R26); empty in `UNINIT` (R190). -/
  out : List Sample
  /-- The model's own: `OUT` as each session ended by `DEINIT` left it, oldest first (R155; log 25). -/
  ended : List (List Sample)
  /-- The model's own: the results of commands, oldest first (log 10). -/
  replies : List Reply
  /-- The model's own: the scheduled turns, next first (log 5). -/
  agenda : List Turn
  /-- The model's own: how many turns the free schedule has chosen (log 6). -/
  turns : Nat
  /-- The model's own: how many times `INIT` has drawn the stores (log 8). -/
  draws : Nat
  deriving DecidableEq, Repr

/-- What the feeder finds when it is given a turn (43_dma_feeder.md R124). -/
inductive Fetched where
  /-- No feeder step is enabled. -/
  | idle
  /-- The slot holds this instruction; the completion event names this buffer. -/
  | line (i : Instr) (buf : Nat)
  /-- The slot holds a reserved code. -/
  | reserved (q : FaultReason)
  /-- The fetch has no meaning. -/
  | stop (f : Fault)
  deriving DecidableEq, Repr

/-- Power-on (R27, R190): `INITED`, `IRQ_EN`, `BCAST` 0, `STATUS` clear, `PEND` and `OUT` empty, nothing else
with a value. -/
def State.reset : State where
  cfg := Cfg.default
  session := none
  irqEn := false
  bcast := false
  glitch := false
  fault := none
  pend := []
  out := []
  ended := []
  replies := []
  agenda := []
  turns := 0
  draws := 0

end Sys2Proof.Machine
end

