-- ==== Sys2Proof/Machine/Operands.lean ====
section
/-! DEFINITION. Operand and address assembly (30_encoding.md R66 to R69, 20_memory.md R47, 42_line_generators.md R107). -/

namespace Sys2Proof.Machine

open Sys2Proof

/-- `INRANGE(x, y, w)`: `0 <= x < w` and `0 <= y < FBH`, the coordinates read as signed 16-bit numbers
(44_pixel_encoder.md R136, R69). DESIGN CHOICE (log 30): a bound `FBW2`, `FBW` or `FBH` above 32767, which W1 to W7
do not refuse, is compared as the unbounded integer it is. -/
def inRange (p : Profile) (w : Nat) (x y : Coord) : Bool :=
  decide (0 ≤ x.toInt ∧ x.toInt < (w : Int) ∧ 0 ≤ y.toInt ∧ y.toInt < (p.fbh : Int))

/-- `A(h, r, j) = h*HALF + r*STRIDE + j` (R47). -/
def rowByte (p : Profile) (h r j : Nat) : Nat := h * p.half + r * p.stride + j

/-- Byte address of a single-density pixel (R67). -/
def sdAddress (p : Profile) (h : Nat) (x y : Coord) : Nat := rowByte p h y.toNat (x.toNat >>> 1)

/-- Byte address of a double-density pixel (R68). -/
def ddAddress (p : Profile) (h : Nat) (x y : Coord) : Nat := rowByte p h y.toNat (x.toNat >>> 2)

/-- The bit of the byte that carries a double-density pixel: `k = 2 * x[1:0] + DD_BIT` (R68). -/
def ddBitOf (c : Cfg) (x : Coord) : Nat := 2 * (x.toNat % 4) + c.ddBit

/-- The byte with pixel `x`'s nibble replaced: even `x` the low one, odd `x` the high one (R137). -/
def sdMerge (x : Coord) (c : Nibble) (b : Byte) : Byte :=
  if x.toNat % 2 = 0 then (b &&& 0xF0#8) ||| c.setWidth 8
  else (b &&& 0x0F#8) ||| (c.setWidth 8 <<< 4)

/-- The byte with bit `k` set for white, cleared for black (R138, R139). -/
def ddMerge (k : Nat) (white : Bool) (b : Byte) : Byte :=
  if white then b ||| (1#8 <<< k) else b &&& ~~~(1#8 <<< k)

/-- The 32-bit result of a query for a configured size (30_encoding.md R63): the size itself where 32 bits hold it.
DESIGN CHOICE (log 31): for a size of 2^32 or more the spec states no result, and it is a free value. -/
def queryResult (n : Nat) : BitVec 32 := if n < 2 ^ 32 then BitVec.ofNat 32 n else Config.wideQuery n

/-- The front half, `FRAME[0]` (45_framebuffer_arbiter_and_host.md R151). -/
def frontHalf (frame : BitVec 32) : BitVec 1 := frame.extractLsb' 0 1

/-- The back half, `(FRAME + 1)[0]` (R151, R163). -/
def backHalf (frame : BitVec 32) : BitVec 1 := (frame + 1#32).extractLsb' 0 1

/-- `ROWADDR()`: the first byte of the row `ACT` reads (R107). -/
def rowAddress (p : Profile) (r : Session) : Nat :=
  rowByte p (frontHalf r.frame).toNat r.pixline.toNat 0

/-- The four level codes of a read unit, in the order they are emitted (R76, R108). -/
def unitCodes (u : BitVec 16) : List Nibble :=
  [u.extractLsb' 0 4, u.extractLsb' 4 4, u.extractLsb' 8 4, u.extractLsb' 12 4]

end Sys2Proof.Machine
end

