-- ==== Sys2Proof/Machine/Flags.lean ====
section
/-! DEFINITION. Control and status. The block has no condition codes (10_state.md R18); what it has are the fields of
`CTRL` (R19), the sticky bits of `STATUS` (R20), and the enables of the two agents' steps (43_dma_feeder.md R122, R124). -/

namespace Sys2Proof.Machine

open Sys2Proof

/-- `CTRL.INITED` (R19, R165). -/
def State.inited (s : State) : Bool := s.session.isSome

/-- `CTRL` in the layout of R19: `INITED` 0, `STD` 1, `IRQ_EN` 2, `BCAST` 3. `STD` has no value while
`INITED = 0`, so neither has the word. No rule reads it. -/
def State.ctrlWord (s : State) : Option (BitVec 4) :=
  s.session.map fun r => BitVec.ofBool s.bcast ++ BitVec.ofBool s.irqEn ++ r.std.toBit ++ 1#1

/-- `STATUS.GLITCH` after the DMA agent starts buffer `b`: set when `b` is still in `PEND`, and sticky (R127). -/
def glitchAfter (glitch : Bool) (pend : List Nat) (b : Nat) : Bool := glitch || decide (b ∈ pend)

/-- A feeder step is enabled: `IRQ_EN = 1`, `PEND` not empty, `STATUS.FAULT = 0` (R124). -/
def State.feederEnabled (s : State) : Bool := s.irqEn && !s.pend.isEmpty && s.fault.isNone

/-- A DMA step is enabled: `INITED = 1` (R122). -/
def State.dmaEnabled (s : State) : Bool := s.inited

end Sys2Proof.Machine
end

