-- ==== Sys2Proof/Machine/Ops.lean ====
section
/-! DEFINITION. The shared operations: framebuffer bytes, `EMIT` and `FILL` (40_waveform_table_and_fill.md), recording a
fault (60_exceptions.md R171), the completion interrupt's entry and return (R180), the DMA step (43_dma_feeder.md R122),
and what a host command may do to the state. -/

namespace Sys2Proof.Machine

open Sys2Proof

/-- The outcome of an instruction. -/
abbrev Result := Host.Outcome State Fault Refusal

/-! ### The framebuffer (20_memory.md R44 to R47) -/

/-- The byte at an address; none where the framebuffer has no such byte (log 9). -/
def Memory.read : List Host.Cell → Nat → Option Byte
  | [], _ => none
  | (b, v) :: m, a => if b = a then some v else Memory.read m a

/-- Store a byte at an address the framebuffer has; nothing changes at an address it has not. -/
def Memory.put (m : List Host.Cell) (a : Nat) (v : Byte) : List Host.Cell :=
  m.map fun cell => if cell.1 = a then (a, v) else cell

/-- The canonical form: addresses strictly rising. An unlisted address does not exist, so no entry can equal
what it reads as (log 9). -/
def Memory.wf : List Host.Cell → Bool
  | [] => true
  | [_] => true
  | x :: y :: m => decide (x.1 < y.1) && Memory.wf (y :: m)

/-- The 16-bit read unit, little-endian over two consecutive bytes (R40). -/
def Memory.readUnit (m : List Host.Cell) (a : Nat) : Option (BitVec 16) :=
  match Memory.read m a, Memory.read m (a + 1) with
  | some lo, some hi => some (hi ++ lo)
  | _, _ => none

/-- `size` freshly drawn bytes (R153: "any `FBSIZE` bytes"; log 8). -/
def drawFb (k size : Nat) : List Host.Cell := (List.range' 0 size).map fun a => (a, Config.freeByte k a)

/-- `n` freshly drawn buffers of `l` samples (R153: "any `N*L` samples"; log 8). -/
def drawTx (k n l : Nat) : List (List Sample) :=
  (List.range' 0 n).map fun b => (List.range' 0 l).map fun i => Config.freeSample k b i

/-- The framebuffer of a state; no bytes in `UNINIT` (R16). -/
def State.fb (s : State) : List Host.Cell :=
  match s.session with
  | some r => r.fb
  | none => []

/-- One byte of the framebuffer. -/
def State.readFb (s : State) (a : Nat) : Option Byte := Memory.read s.fb a

/-! ### EMIT and FILL -/

/-- `EMIT(c)` (R83): append the sample `WT[CUR][c]` to the buffer under refill and advance the cursor; none
where `WT`, `TX` or the line has no such place. -/
def Session.emit (c : Cfg) (lv : Nibble) (r : Session) : Option Session :=
  match c.wt[r.cur]? with
  | none => none
  | some row =>
    if r.wp < (c.profile r.std).l ∧ r.buf < c.n then
      some { r with
        tx := r.tx.modify r.buf fun line => line.set r.wp (row.get lv.toFin)
        wp := r.wp + 1
        cur := (r.cur + 1) % c.ring }
    else none

/-- `EMIT` of each code in turn. -/
def Session.emits (c : Cfg) : List Nibble → Session → Option Session
  | [], r => some r
  | lv :: lvs, r => (r.emit c lv).bind (Session.emits c lvs)

/-- `FILL(qty, lv)`: "repeat qty times: EMIT(lv)" (R84). -/
def Session.fill (c : Cfg) (lv : Nibble) : Nat → Session → Option Session
  | 0, r => some r
  | qty + 1, r => (r.emit c lv).bind (Session.fill c lv qty)

/-- A segment list: `FILL(q1, lv1); FILL(q2, lv2); ...` in order (00_scope.md R8). -/
def Session.fills (c : Cfg) : List (Nat × Nibble) → Session → Option Session
  | [], r => some r
  | (qty, lv) :: segs, r => (r.fill c lv qty).bind (Session.fills c segs)

/-- The active portion of `ACT`: read units from `base`, `units` of them, each emitted as four codes (R106,
R108). -/
def Session.row (c : Cfg) : (units base : Nat) → Session → Option Session
  | 0, _, r => some r
  | units + 1, base, r =>
    match Memory.readUnit r.fb base with
    | none => none
    | some u => (r.emits c (unitCodes u)).bind (Session.row c units (base + 2))

/-! ### Outcomes -/

/-- Recording the spec's `Fault(reason)`: `STATUS.FAULT` with the reason, and nothing else (R171). This is all
the block has of an exception: no vector, no saved state, no return (R170). -/
def State.raise (s : State) (q : FaultReason) : State := { s with fault := some q }

/-- Append a command's result (R63; log 10). -/
def State.reply (s : State) (v : Reply) : State := { s with replies := s.replies ++ [v] }

/-- Replace the session. -/
def State.withSession (s : State) (r : Session) : State := { s with session := some r }

/-- A host command that needs `READY`: refused `WrongState` in `UNINIT`, with no state change (R165). -/
def State.whenReady (s : State) (f : Session → Result) : Result :=
  match s.session with
  | none => .refused .wrongState
  | some r => f r

/-- A line instruction: its generator runs over the session; it needs buffers (U6) and stays inside the
stores (log 13). -/
def State.runLine (s : State) (g : Session → Option Session) : Result :=
  match s.session with
  | none => .fault .noBuffers
  | some r =>
    match g r with
    | none => .fault .noSuchCell
    | some r' => .next (s.withSession r')

/-! ### Pixel writes (44_pixel_encoder.md) -/

/-- The read-modify-write of one framebuffer byte, one atomic step (R45; log 17). -/
def State.editFb (s : State) (r : Session) (a : Nat) (f : Byte → Byte) : Result :=
  match Memory.read r.fb a with
  | none => .fault .noSuchCell
  | some b => .next (s.withSession { r with fb := Memory.put r.fb a (f b) })

/-- The single-density writer: discards out-of-range coordinates (R141), else writes one nibble of the half
`WSEL` selects (R137, R140). -/
def State.writeSd (s : State) (r : Session) (x y : Coord) (c : Nibble) : Result :=
  let p := s.cfg.profile r.std
  if inRange p p.fbw2 x y then s.editFb r (sdAddress p r.wsel.toNat x y) (sdMerge x c)
  else .next s

/-- The double-density writer: discards out-of-range coordinates (R141), else sets the pixel's bit for white
and clears it for black, in the half `WSEL` selects (R138, R139, R140, R144). -/
def State.writeDd (s : State) (r : Session) (x y : Coord) (white : Bool) : Result :=
  let p := s.cfg.profile r.std
  if inRange p p.fbw x y then s.editFb r (ddAddress p r.wsel.toNat x y) (ddMerge (ddBitOf s.cfg x) white)
  else .next s

/-! ### The DMA step (R122) -/

/-- The DMA step: transmit the whole buffer `TXI`, queue its completion event, go on in ring order. Not enabled
in `UNINIT`, where the turn has no effect (log 7). -/
def State.dmaStep (s : State) : Result :=
  match s.session with
  | none => .next s
  | some r =>
    match r.tx[r.txi]? with
    | none => .fault .noSuchCell
    | some line => .next { s with
        glitch := glitchAfter s.glitch s.pend r.txi
        out := s.out ++ line
        pend := s.pend ++ [r.txi]
        session := some { r with txi := (r.txi + 1) % s.cfg.n } }

/-! ### The completion interrupt (R180) and the feeder (R124) -/

/-- `LOOKUP(SLN)` for `0 <= SLN < TOTAL` (41_vertical_timing_lookup.md R91); none outside that domain (R92). -/
def Session.lookup (c : Cfg) (r : Session) : Option Nibble :=
  let p := c.profile r.std
  if 0 ≤ r.sln.toInt ∧ r.sln.toInt < (p.total : Int) then slotCode p.vtm r.sln.toNat else none

/-- What the feeder finds at its turn: nothing when no step is enabled, else the instruction at slot `SLN` and
the released buffer (R124), or a reserved code (R99). -/
def State.fetch (s : State) : Fetched :=
  if s.feederEnabled then
    match s.session, s.pend with
    | some r, b :: _ =>
      match r.lookup s.cfg with
      | none => .stop .fetchRange
      | some code =>
        match decodeLine code with
        | some i => .line i b
        | none => .reserved (.illegalLineType r.sln code)
    | none, _ => .stop .noBuffers
    | some _, [] => .idle
  else .idle

/-- Entry of the completion interrupt: `BUF <- head(PEND); WP <- 0` (R180, R124). Nothing is saved. -/
def State.enterFeeder (s : State) (b : Nat) : State :=
  { s with session := s.session.map fun r => { r with buf := b, wp := 0 } }

/-- Return of the completion interrupt on the state `t` the line instruction left: `assert WP = L`, then
`SLN <- SLN + 1; PEND <- tail(PEND)` (R124, R180). -/
def State.leaveFeeder (t : State) : Result :=
  match t.session with
  | none => .fault .noBuffers
  | some r =>
    if r.wp = (t.cfg.profile r.std).l then
      .next { t with session := some { r with sln := r.sln + 1#16 }, pend := t.pend.tail }
    else .fault .lineLength

/-- The end of a feeder step begun in `s`: a line instruction that raised a fault has written nothing else
(R171), any other one returns. -/
def State.finishFeeder (s : State) : Result → Result
  | .next t =>
    match t.fault with
    | some q => .next (s.raise q)
    | none => t.leaveFeeder
  | .fault f => .fault f
  | .refused q => .refused q

/-! ### The schedule (20_memory.md R50; log 5, log 6) -/

/-- The next turn and the state it is taken in: the head of `agenda`; where there is none, a free choice of the
two agents that move by themselves, the feeder only when it is enabled. -/
def State.nextTurn (s : State) : Turn × State :=
  match s.agenda with
  | t :: rest => (t, { s with agenda := rest })
  | [] =>
    if s.feederEnabled then
      (if Config.feederFirst s.turns then .feeder else .dma, { s with turns := s.turns + 1 })
    else (.dma, s)

end Sys2Proof.Machine
end

