-- ==== Sys2Proof/Machine/Commands.lean ====
section
/-! DEFINITION. The host commands but `TACK` (45_framebuffer_arbiter_and_host.md R150 to R167). -/

namespace Sys2Proof.Machine

open Sys2Proof

/-- The session a successful `INIT(std)` starts (10_state.md R27): counters 0, `WSEL` 1, `TXI` 0, the stores as
drawn. `BUF` and `WP` are given 0 (log 4); the spec gives them no value before the first feeder step. -/
def freshSession (c : Cfg) (std : Std) (k : Nat) : Session where
  std := std
  sln := 0#16
  frame := 0#32
  pixline := 0#16
  cur := 0
  wsel := 1#1
  buf := 0
  wp := 0
  txi := 0
  fb := drawFb k (c.profile std).fbsize
  tx := drawTx k c.n (c.profile std).l

/-- The state a successful `INIT(std)` leaves, its result apart (R27, R153). -/
def State.afterInit (s : State) (std : Std) : State :=
  { s with
    session := some (freshSession s.cfg std s.draws)
    irqEn := true
    bcast := false
    glitch := false
    fault := none
    pend := []
    out := []
    draws := s.draws + 1 }

/-- `INIT(std)` with `alloc_ok` (R153, R154): refused in `READY` and on an ill-formed configuration; a failed
allocation answers status 1 and changes nothing. -/
def execInit (std : Std) (allocOk : Bool) (s : State) : Result :=
  match s.session with
  | some _ => .refused .wrongState
  | none =>
    match s.cfg.violation std with
    | some w => .refused (.illFormedConfig w)
    | none =>
      if allocOk then .next ((s.afterInit std).reply (.status 0#1))
      else .next (s.reply (.status 1#1))

/-- The state `DEINIT` leaves (R155, R190): disarm, disable, drop the pending events, give up registers and stores;
`OUT` is empty in `UNINIT`, and what the session transmitted goes to the trace `ended` (log 25). `STATUS` stays until a
successful `INIT` (R20, R171). -/
def State.afterDeinit (s : State) : State :=
  { s with
    session := none
    irqEn := false
    bcast := false
    pend := []
    out := []
    ended := s.ended ++ [s.out] }

/-- `DEINIT` (R155): back to `UNINIT`. -/
def execDeinit (s : State) : Result := s.whenReady fun _ => .next s.afterDeinit

/-- `START` (R156): `BCAST <- 1`. -/
def execStart (s : State) : Result := s.whenReady fun _ => .next { s with bcast := true }

/-- `STOP` (R157): `BCAST <- 0`. -/
def execStop (s : State) : Result := s.whenReady fun _ => .next { s with bcast := false }

/-- `GET_FRAME` (R158): the value of `FRAME`. -/
def execGetFrame (s : State) : Result := s.whenReady fun r => .next (s.reply (.value r.frame))

/-- `GET_WIDTH` (R159): `FBW`; a free value where 32 bits do not hold it (log 31). -/
def execGetWidth (s : State) : Result :=
  s.whenReady fun r => .next (s.reply (.value (queryResult (s.cfg.profile r.std).fbw)))

/-- `GET_HEIGHT` (R162): `FBH` of the selected standard; a free value where 32 bits do not hold it (log 31). -/
def execGetHeight (s : State) : Result :=
  s.whenReady fun r => .next (s.reply (.value (queryResult (s.cfg.profile r.std).fbh)))

/-- `GET_BACK` (R163): `WSEL <- (FRAME + 1)[0]`, and its value zero-extended (R75). -/
def execGetBack (s : State) : Result :=
  s.whenReady fun r =>
    .next ((s.withSession { r with wsel := backHalf r.frame }).reply (.value ((backHalf r.frame).setWidth 32)))

end Sys2Proof.Machine
end

