-- ==== Sys2Proof/Machine/Lines.lean ====
section
/-! DEFINITION. The seven line instructions (42_line_generators.md R100 to R113): each a segment list and the registers
its rule names. -/

namespace Sys2Proof.Machine

open Sys2Proof

/-- The generator of `SS` (R101): two short pulses half a line apart, then black; `PIXLINE <- 0`. -/
def Session.genSs (c : Cfg) (r : Session) : Option Session :=
  let p := c.profile r.std
  (r.fills c [(p.short, c.sync), (p.long, c.black), (p.short, c.sync),
    (p.rest (2 * p.short + p.long), c.black)]).map fun r' => { r' with pixline := 0#16 }

/-- The generator of `LS` (R102): two long pulses and the gap between them. -/
def Session.genLs (c : Cfg) (r : Session) : Option Session :=
  let p := c.profile r.std
  r.fills c [(p.long, c.sync), (p.gapLs, c.black), (p.long, c.sync),
    (p.rest (2 * p.long + p.gapLs), c.black)]

/-- The level of the final fill of `BK`: gray while `GRAY_TOP` and `PIXLINE < 1`, else black (R103). -/
def bkLevel (c : Cfg) (p : Profile) (pixline : BitVec 16) : Nibble :=
  if p.grayTop ∧ pixline.toNat < 1 then c.gray else c.black

/-- The generator of `BK` (R103): sync, gap, colourburst, then gray or black. -/
def Session.genBk (c : Cfg) (r : Session) : Option Session :=
  let p := c.profile r.std
  r.fills c [(p.normal, c.sync), (p.gapBk, c.black), (p.burstBk, c.colourburst),
    (p.rest (p.normal + p.gapBk + p.burstBk), bkLevel c p r.pixline)]

/-- The generator of `S2L` (R104): a short pulse in the first half, a long one in the second. -/
def Session.genS2l (c : Cfg) (r : Session) : Option Session :=
  let p := c.profile r.std
  if p.useSerr then
    r.fills c [(p.short, c.sync), (p.long, c.black), (p.serr, c.sync),
      (p.rest (p.short + p.long + p.serr), c.black)]
  else
    r.fills c [(p.short, c.sync), (p.long, c.black), (p.long, c.sync),
      (p.rest (p.short + 2 * p.long), c.black)]

/-- The generator of `L2S` (R105): a long pulse in the first half, a short one in the second. -/
def Session.genL2s (c : Cfg) (r : Session) : Option Session :=
  let p := c.profile r.std
  if p.useSerr then
    r.fills c [(p.serr, c.sync), (p.normal, c.black), (p.short, c.sync),
      (p.rest (p.serr + p.normal + p.short), c.black)]
  else
    r.fills c [(p.long, c.sync), (p.short, c.black), (p.short, c.sync),
      (p.rest (p.long + 2 * p.short), c.black)]

/-- The generator of `ACT` (R106): sync, gap, colourburst, blanking, the row of the front half that `PIXLINE`
selects (R107), back porch; `PIXLINE <- PIXLINE + 1`. -/
def Session.genAct (c : Cfg) (r : Session) : Option Session :=
  let p := c.profile r.std
  (((r.fills c [(p.normal, c.sync), (p.gapAct, c.black), (p.burst, c.colourburst), (p.blankAct, c.black)]).bind
      (Session.row c (p.stride / 2) (rowAddress p r))).bind
      (Session.fill c c.black (p.rest (p.hdr + p.fbw2)))).map
    fun r' => { r' with pixline := r'.pixline + 1#16 }

/-- The level of the final fill of `EOF`: white with `EOF_WHITE_TAIL`, else black (R110). -/
def eofLevel (c : Cfg) (p : Profile) : Nibble := if p.eofWhiteTail then c.white else c.black

/-- The generator of `EOF` (R110): the pulses of `SS`, the tail; `SLN <- -1`, `FRAME <- FRAME + 1` with the
32-bit wrap (R112). -/
def Session.genEof (c : Cfg) (r : Session) : Option Session :=
  let p := c.profile r.std
  (r.fills c [(p.short, c.sync), (p.long, c.black), (p.short, c.sync),
    (p.rest (2 * p.short + p.long), eofLevel c p)]).map
    fun r' => { r' with sln := -1#16, frame := r'.frame + 1#32 }

/-- `SS`, ShortSync (R101). -/
def execSs (s : State) : Result := s.runLine (Session.genSs s.cfg)

/-- `LS`, LongSync (R102). -/
def execLs (s : State) : Result := s.runLine (Session.genLs s.cfg)

/-- `BK`, Black (R103). -/
def execBk (s : State) : Result := s.runLine (Session.genBk s.cfg)

/-- `S2L`, ShortToLong (R104). -/
def execS2l (s : State) : Result := s.runLine (Session.genS2l s.cfg)

/-- `L2S`, LongToShort (R105). -/
def execL2s (s : State) : Result := s.runLine (Session.genL2s s.cfg)

/-- The row `ACT` would read is outside the half: `PIXLINE >= FBH` (R109). -/
def Session.rowOutside (c : Cfg) (r : Session) : Bool := decide ((c.profile r.std).fbh ≤ r.pixline.toNat)

/-- `ACT`, ActiveLine (R106); with `PIXLINE >= FBH` at entry it raises `RowOutOfRange(PIXLINE)` instead of
reading (R109). -/
def execAct (s : State) : Result :=
  match s.session with
  | some r =>
    if r.rowOutside s.cfg then .next (s.raise (.rowOutOfRange r.pixline))
    else s.runLine (Session.genAct s.cfg)
  | none => s.runLine (Session.genAct s.cfg)

/-- `EOF`, EndOfFrame (R110, R112). -/
def execEof (s : State) : Result := s.runLine (Session.genEof s.cfg)

end Sys2Proof.Machine
end

