-- ==== Sys2Proof/Machine/Pixels.lean ====
section
/-! DEFINITION. `TACK` and its three decodings (44_pixel_encoder.md R135 to R144). -/

namespace Sys2Proof.Machine

open Sys2Proof

/-- `TACK(x, y, col)` (R135): the colour selects the writer, an invalid colour is discarded (R141). -/
def execTack (x y : Coord) (col : Byte) (s : State) : Result :=
  s.whenReady fun r =>
    if s.cfg.maxCol < col.toNat then .next s
    else if col.toNat < s.cfg.ddBase then s.writeSd r x y (lowNibble col)
    else s.writeDd r x y (decide (col.toNat = s.cfg.ddWhite))

/-- `PIXSD(x, y, c)` (R137), with the writer's own discard (R141; log 14). -/
def execPixsd (x y : Coord) (c : Nibble) (s : State) : Result := s.whenReady fun r => s.writeSd r x y c

/-- `PIXDD0(x, y)`: double-density black (R138; log 14). -/
def execPixdd0 (x y : Coord) (s : State) : Result := s.whenReady fun r => s.writeDd r x y false

/-- `PIXDD1(x, y)`: double-density white (R139; log 14). -/
def execPixdd1 (x y : Coord) (s : State) : Result := s.whenReady fun r => s.writeDd r x y true

end Sys2Proof.Machine
end

