-- ==== Sys2Proof/Machine/Dispatch.lean ====
section
/-! DEFINITION. The meaning of each instruction, one arm per constructor. -/

namespace Sys2Proof.Machine

open Sys2Proof

def exec (i : Instr) (s : State) : Host.Outcome State Fault Refusal :=
  match i with
  | .ss => Sys2Proof.Machine.execSs s
  | .ls => Sys2Proof.Machine.execLs s
  | .bk => Sys2Proof.Machine.execBk s
  | .s2l => Sys2Proof.Machine.execS2l s
  | .l2s => Sys2Proof.Machine.execL2s s
  | .act => Sys2Proof.Machine.execAct s
  | .eof => Sys2Proof.Machine.execEof s
  | .init std allocOk => Sys2Proof.Machine.execInit std allocOk s
  | .deinit => Sys2Proof.Machine.execDeinit s
  | .start => Sys2Proof.Machine.execStart s
  | .stop => Sys2Proof.Machine.execStop s
  | .tack x y col => Sys2Proof.Machine.execTack x y col s
  | .getFrame => Sys2Proof.Machine.execGetFrame s
  | .getWidth => Sys2Proof.Machine.execGetWidth s
  | .getHeight => Sys2Proof.Machine.execGetHeight s
  | .getBack => Sys2Proof.Machine.execGetBack s
  | .pixsd x y c => Sys2Proof.Machine.execPixsd x y c s
  | .pixdd0 x y => Sys2Proof.Machine.execPixdd0 x y s
  | .pixdd1 x y => Sys2Proof.Machine.execPixdd1 x y s

end Sys2Proof.Machine
end

