-- ==== Sys2Proof/Machine/Port.lean ====
section
/-! DEFINITION. Placing an encoded item where the next step takes it: the support of `State.withFetchWord` (log 16). -/

namespace Sys2Proof.Machine

open Sys2Proof

/-- The state in `READY`: as it is, or as a successful `INIT(NTSC)` leaves it, since every instruction but `INIT`
needs buffers (log 16). -/
def State.placeSession (s : State) : State :=
  match s.session with
  | some _ => s
  | none => s.afterInit .ntsc

/-- The configuration with the code of slot `SLN` of the selected table replaced. -/
def Cfg.patched (c : Cfg) (r : Session) (code : Nibble) : Cfg :=
  match r.std with
  | .ntsc => { c with ntsc := { c.ntsc with vtm := patchSlot c.ntsc.vtm r.sln.toNat code } }
  | .pal => { c with pal := { c.pal with vtm := patchSlot c.pal.vtm r.sln.toNat code } }

/-- A `READY` state whose next turn is a feeder step that fetches `code`: the slot's code, a completion event,
an enabled interrupt, the turn. -/
def State.placeLine (s : State) (code : Nibble) : State :=
  match s.session with
  | some r => { s with
      cfg := Cfg.patched s.cfg r code
      irqEn := true
      fault := none
      pend := if s.pend.isEmpty then [r.txi] else s.pend
      agenda := .feeder :: s.agenda }
  | none => s

/-- The item where the next step takes it: a line-type code in the slot `SLN` selects, a command on the command
port, a colour as the colour of a `TACK` on the command port (R60). -/
def State.placeItem (s : State) : Item → State
  | .line code => s.placeSession.placeLine code
  | .command c => { s.placeSession with agenda := .host c :: s.agenda }
  | .pixel x y col =>
    { s.placeSession with agenda := .host { bareCommand 4#4 with x := x, y := y, col := col } :: s.agenda }

end Sys2Proof.Machine
end

