-- ==== Sys2Proof/Machine/Step.lean ====
section
/-! DEFINITION. One step of the whole machine: the next turn of the schedule (20_memory.md R50). -/

namespace Sys2Proof.Machine

open Sys2Proof

/-- The feeder step (43_dma_feeder.md R124): fetch, entry, one line instruction, return. Where no feeder step is
enabled the turn has no effect (log 7); a reserved code raises `IllegalLineType` (R99). -/
def State.feederStep (s : State) : Host.Outcome State Fault Refusal :=
  match s.fetch with
  | .idle => .next s
  | .line i b => s.finishFeeder (exec i (s.enterFeeder b))
  | .reserved q => .next (s.raise q)
  | .stop f => .fault f

/-- A host command from the command port; codes 9 to 15 are refused (R71). -/
def State.hostStep (s : State) (c : Command) : Host.Outcome State Fault Refusal :=
  match decodeCommand c with
  | some i => exec i s
  | none => .refused (.unknownCommand c.cmd)

/-- One step: a DMA step, a feeder step or a host command, as the schedule has it (R50; log 5, log 6). -/
def step (s : State) : Host.Outcome State Fault Refusal :=
  match s.nextTurn with
  | (.dma, t) => t.dmaStep
  | (.feeder, t) => t.feederStep
  | (.host c, t) => t.hostStep c

/-- The state with the instruction of a table word stored where the next step takes it (log 15, log 16). -/
def State.withFetchWord (s : State) (nbits w : Nat) : State :=
  match tableItem nbits w with
  | some item => s.placeItem item
  | none => s

end Sys2Proof.Machine
end

