-- ==== Sys2Proof/Safety.lean ====
section
/-! DEFINITION. The terms statements are made in: what a good state is, the waveform a line should carry (40_waveform_table_and_fill.md
R85), the pixels of a framebuffer, and the ownership of buffers (20_memory.md R56). -/

namespace Sys2Proof.Machine

open Sys2Proof

/-! ### The waveform of a line (R85) -/

/-- `WT[k mod P][lv]`. The table of a well-formed configuration has a row for every `k` (W2). -/
def Cfg.sampleAt (c : Cfg) (k : Nat) (lv : Nibble) : Sample :=
  match c.wt[k % c.ring]? with
  | some row => row.get lv.toFin
  | none => 0#32

/-- The samples of consecutive level codes from the cursor `cur` on: "the sample at offset `k` of the line is
`WT[(CUR0 + k) mod P][c_k]`" (R85). -/
def Cfg.waveform (c : Cfg) (cur : Nat) (levels : List Nibble) : List Sample :=
  levels.mapIdx fun k lv => Cfg.sampleAt c (cur + k) lv

/-- The level code at each offset of a segment list (R8, R113). -/
def segmentLevels (segs : List (Nat × Nibble)) : List Nibble :=
  segs.flatMap fun seg => List.replicate seg.1 seg.2

/-- What a line instruction that emits these levels does to the session, apart from the registers its own rule
names: `TX[BUF]`, `WP` and `CUR` (R85, R100). -/
def Session.afterLine (c : Cfg) (r : Session) (levels : List Nibble) : Session :=
  { r with
    tx := r.tx.set r.buf (Cfg.waveform c r.cur levels)
    wp := levels.length
    cur := (r.cur + levels.length) % c.ring }

/-! ### Pixels (30_encoding.md R74) -/

/-- The level code of single-density pixel `x` of row `y` of half `h`. -/
def sdPixel (p : Profile) (fb : List Host.Cell) (h x y : Nat) : Option Nibble :=
  (Memory.read fb (rowByte p h y (x / 2))).map fun b => if x % 2 = 0 then lowNibble b else highNibble b

/-- The level codes of row `y` of half `h`, left to right; none when a byte is missing. -/
def rowLevels (p : Profile) (fb : List Host.Cell) (h y : Nat) : Option (List Nibble) :=
  (List.range p.fbw2).mapM fun x => sdPixel p fb h x y

/-! ### Good states -/

/-- The stores of a session have the shape the configuration gives them, and the indices into them are in
range (R21 to R26). -/
structure Session.Stores (c : Cfg) (r : Session) : Prop where
  /-- W1 to W7 hold of the selected standard (R6, R153). -/
  wellFormed : c.violation r.std = none
  /-- `FB` has exactly the bytes `0 .. FBSIZE-1` (R22). -/
  fbCells : r.fb.map Prod.fst = List.range (c.profile r.std).fbsize
  /-- `TX` has `N` buffers (R23). -/
  txCount : r.tx.length = c.n
  /-- Every buffer has `L` samples (R23). -/
  txLength : ∀ line ∈ r.tx, line.length = (c.profile r.std).l
  /-- `CUR` is in `0 .. P-1` (R14). -/
  curIn : r.cur < c.ring
  /-- `TXI` is in `0 .. N-1` (R26). -/
  txiIn : r.txi < c.n

/-- The counters agree with the position in the line program: `SLN` is a slot (R11), and `PIXLINE` counts the
`ACT` slots since the last `SS` slot before it, or is at most `FBH` where there is none yet (R13). -/
structure Session.Placed (c : Cfg) (r : Session) : Prop where
  slnLow : 0 ≤ r.sln.toInt
  slnHigh : r.sln.toInt < ((c.profile r.std).total : Int)
  rowsKnown : ∀ k, rowsSeen ((c.profile r.std).slots.take r.sln.toNat) = some k → r.pixline.toNat = k
  rowsBound : r.pixline.toNat ≤ (c.profile r.std).fbh

/-- The invariant of the machine. `SLN` has 16 bits, so it needs `TOTAL <= 32767` (R11; log 18). -/
structure State.Inv (s : State) : Prop where
  ntscTotal : s.cfg.ntsc.total ≤ 32767
  palTotal : s.cfg.pal.total ≤ 32767
  /-- No run faults (R171). -/
  noFault : s.fault = none
  /-- `UNINIT`: no interrupt, no notification, nothing pending, `OUT` empty (R130, R155, R190). -/
  uninit : s.session = none → s.irqEn = false ∧ s.bcast = false ∧ s.pend = [] ∧ s.out = []
  /-- `READY`: the interrupt is enabled from `INIT` to `DEINIT` (R178, R198), stores and counters are good, and
  every pending event names a buffer. -/
  ready : ∀ r, s.session = some r →
    s.irqEn = true ∧ r.Stores s.cfg ∧ r.Placed s.cfg ∧ ∀ b ∈ s.pend, b < s.cfg.n

/-- `READY` with good stores and a buffer `BUF` under refill from its start: what a line instruction is executed
in (R100). -/
structure State.Refilling (s : State) (r : Session) : Prop where
  isReady : s.session = some r
  stores : r.Stores s.cfg
  bufIn : r.buf < s.cfg.n
  atStart : r.wp = 0

/-- While no deadline has been missed, `PEND` holds the buffers transmitted last, oldest first, in ring order and
at most `N` of them (R123, R126). -/
def State.RingOrder (s : State) : Prop :=
  match s.session with
  | none => s.pend = []
  | some r => s.glitch = false → s.pend.length ≤ s.cfg.n ∧
      ∀ j, (h : j < s.pend.length) → s.pend[j] = (r.txi + s.cfg.n - s.pend.length + j) % s.cfg.n

/-- The client holds a current handle: `WSEL` selects the back half (R52, R163). -/
def State.Punctual (s : State) : Prop :=
  ∀ r, s.session = some r → r.wsel = backHalf r.frame

/-- The next turn runs the line instruction `EOF`. -/
def State.RunsEof (s : State) : Prop :=
  ∃ t b, s.nextTurn = (.feeder, t) ∧ t.fetch = .line .eof b

/-- The address is a byte of half `h` (20_memory.md R47). -/
def inHalf (p : Profile) (h a : Nat) : Prop := h * p.half ≤ a ∧ a < h * p.half + p.half

/-- An outcome with `BCAST` forgotten (R161). -/
def forgetBcast : Result → Result
  | .next s => .next { s with bcast := false }
  | .fault f => .fault f
  | .refused q => .refused q

end Sys2Proof.Machine
end

