-- ==== Sys2Proof/Certificates/Slice0/Obligations.lean ====
section
/-! DEFINITION. The statements for the provers, made from the numbered rules of spec/. Where a rule rests on one of the
spec's own decisions D<n>, the docstring names it. -/

open Sys2Proof Sys2Proof.Machine

/-! ### Reset and the two block states -/

/-- Power-on (R190, decision D28): `INITED`, `IRQ_EN`, `BCAST` are 0, `STATUS` is clear, no register and no store
has a value, `OUT` is empty; in `UNINIT`, after a `DEINIT` too, no DMA step and no feeder step is enabled, `OUT` is
empty, and the only command accepted is `INIT`. -/
def Obligations.PowerOnIsUninit : Prop :=
  (State.reset.inited = false ∧ State.reset.irqEn = false ∧ State.reset.bcast = false ∧
    State.reset.glitch = false ∧ State.reset.fault = none ∧ State.reset.session = none ∧
    State.reset.out = []) ∧
  State.reset.dmaEnabled = false ∧ State.reset.feederEnabled = false ∧
  ∀ s : State, s.Inv → s.session = none →
    s.dmaEnabled = false ∧ s.feederEnabled = false ∧ s.out = [] ∧
    ∀ c i, decodeCommand c = some i → (∀ std ok, i ≠ .init std ok) → exec i s = .refused .wrongState

/-- R165 (decision D28): `INIT` in `READY` and every other command in `UNINIT` are refused `WrongState`. -/
def Obligations.CommandsInTheWrongState : Prop :=
  (∀ s r std ok, s.session = some r → exec (.init std ok) s = .refused .wrongState) ∧
  ∀ s : State, s.session = none →
    exec .deinit s = .refused .wrongState ∧ exec .start s = .refused .wrongState ∧
    exec .stop s = .refused .wrongState ∧ exec .getFrame s = .refused .wrongState ∧
    exec .getWidth s = .refused .wrongState ∧ exec .getHeight s = .refused .wrongState ∧
    exec .getBack s = .refused .wrongState ∧
    ∀ x y col, exec (.tack x y col) s = .refused .wrongState

/-- The three pixel writes are decodings of `TACK` (R79), so in `UNINIT` they are refused as `TACK` is (R165). That they
run as instructions of their own is the model's choice (log 14). -/
def Obligations.PixelWritersNeedAReadyBlock : Prop :=
  ∀ s : State, s.session = none → ∀ x y,
    (∀ c, exec (.pixsd x y c) s = .refused .wrongState) ∧
    exec (.pixdd0 x y) s = .refused .wrongState ∧ exec (.pixdd1 x y) s = .refused .wrongState

/-! ### The step -/

/-- The step takes the scheduled turn (R50; the schedule is the model's `agenda`, log 5): a DMA step, a feeder step, or
a host command, which runs as `exec` of the instruction its code decodes to. -/
def Obligations.StepRunsTheScheduledTurn : Prop :=
  ∀ (s : State) rest,
    (s.agenda = .dma :: rest → step s = State.dmaStep { s with agenda := rest }) ∧
    (s.agenda = .feeder :: rest → step s = State.feederStep { s with agenda := rest }) ∧
    ∀ c i, s.agenda = .host c :: rest → decodeCommand c = some i → step s = exec i { s with agenda := rest }

/-- R71, R172 (decision D25): a command code of 9 to 15 on the command port is refused by its number. That this reason
comes before `WrongState` in `UNINIT` is the model's choice (log 28; R172 gives no order of the reasons), and so is the
schedule (log 5). -/
def Obligations.ReservedCommandsAreRefused : Prop :=
  ∀ (s : State) c rest, s.agenda = .host c :: rest → 9 ≤ c.cmd.toNat →
    step s = .refused (.unknownCommand c.cmd)

/-- R124: a feeder turn with `IRQ_EN = 1`, an event for buffer `b` and no fault fetches slot `SLN`, executes the
decoded line instruction with `BUF = b` and `WP = 0`, and, when the line is full and no fault is raised, adds 1 to
`SLN` and drops the event. Around `exec` the step does nothing else. -/
def Obligations.StepRunsTheFetchedLine : Prop :=
  ∀ (s : State) rest r b pend code i, s.agenda = .feeder :: rest → s.irqEn = true → s.fault = none →
    s.pend = b :: pend → s.session = some r → r.lookup s.cfg = some code → decodeLine code = some i →
    step s = State.finishFeeder { s with agenda := rest }
      (exec i { s with agenda := rest, session := some { r with buf := b, wp := 0 } }) ∧
    ∀ (t : State) (r' : Session),
      exec i { s with agenda := rest, session := some { r with buf := b, wp := 0 } } = .next t →
      t.fault = none → t.session = some r' → r'.wp = (t.cfg.profile r'.std).l →
      step s = .next { t with session := some { r' with sln := r'.sln + 1#16 }, pend := t.pend.tail }

/-- R124, R130: where no feeder step is enabled (`IRQ_EN = 0`, `PEND` empty, or `STATUS.FAULT` set), a feeder turn
changes nothing but the schedule. That such a turn passes is the model's choice (log 7). The DMA agent's turns are
`Obligations.DisabledDmaTurnsPass`. -/
def Obligations.DisabledFeederTurnsPass : Prop :=
  ∀ (s : State) rest, s.agenda = .feeder :: rest → s.irqEn = false ∨ s.pend = [] ∨ s.fault ≠ none →
    step s = .next { s with agenda := rest }

/-- The model's choice where the schedule holds no turn (log 6; R50, U17): the DMA agent moves, or, when a feeder
step is enabled, one of the two. -/
def Obligations.FreeScheduleMovesAnAgent : Prop :=
  ∀ s : State, s.agenda = [] →
    (s.feederEnabled = false → step s = s.dmaStep) ∧
    (s.feederEnabled = true →
      step s = State.dmaStep { s with turns := s.turns + 1 } ∨
      step s = State.feederStep { s with turns := s.turns + 1 })

/-- R122 (decision D26): in `READY` the DMA step transmits the `L` samples of buffer `TXI`, appends its event to `PEND`,
moves `TXI` on in ring order, and sets `GLITCH` exactly when the buffer's event was still pending or it was set
already; nothing else changes. -/
def Obligations.DmaStepTransmitsOneBuffer : Prop :=
  ∀ (s : State) r, s.session = some r → r.Stores s.cfg →
    s.dmaEnabled = true ∧
    ∃ line, r.tx[r.txi]? = some line ∧ line.length = (s.cfg.profile r.std).l ∧
      ∃ g : Bool, (g = true ↔ s.glitch = true ∨ r.txi ∈ s.pend) ∧
        s.dmaStep = .next { s with
          glitch := g, out := s.out ++ line, pend := s.pend ++ [r.txi],
          session := some { r with txi := (r.txi + 1) % s.cfg.n } }

/-! ### Commands -/

/-- R153, R191 (decisions D16, D28, D29): `INIT(std)` is refused in `READY` and on an ill-formed configuration; with
`alloc_ok = 0` it answers status 1 and changes nothing; with `alloc_ok = 1` it answers status 0 and resets every piece
of state. `FB` has `(FBW/4)*FBH*2` bytes and `TX` has `N` buffers of `L` samples, of any content; the values of `BUF` and
`WP` are not stated, nor is the model's own counter `draws` (log 4, log 8). -/
def Obligations.InitResetsTheBlock : Prop :=
  ∀ (s : State) std,
    (∀ r ok, s.session = some r → exec (.init std ok) s = .refused .wrongState) ∧
    (∀ ok, s.session = none → s.cfg.violation std ≠ none →
      ∃ w, exec (.init std ok) s = .refused (.illFormedConfig w)) ∧
    (s.session = none → s.cfg.violation std = none →
      exec (.init std false) s = .next { s with replies := s.replies ++ [.status 1#1] } ∧
      ∃ fb tx buf wp draws,
        fb.map Prod.fst = List.range ((s.cfg.profile std).fbw / 4 * (s.cfg.profile std).fbh * 2) ∧
        tx.length = s.cfg.n ∧ (∀ line ∈ tx, line.length = (s.cfg.profile std).l) ∧
        exec (.init std true) s = .next { s with
          session := some { std := std, sln := 0#16, frame := 0#32, pixline := 0#16, cur := 0, wsel := 1#1,
                            buf := buf, wp := wp, txi := 0, fb := fb, tx := tx }
          irqEn := true, bcast := false, glitch := false, fault := none, pend := [], out := []
          replies := s.replies ++ [.status 0#1], draws := draws })

/-- R154, R174 (decision D29): after an `INIT` with `alloc_ok = 0` the status is 1, no state has changed, no DMA step and
no feeder step is enabled, and a further `INIT` may be issued and succeeds. -/
def Obligations.FailedAllocationLeavesTheBlockUninitialised : Prop :=
  ∀ (s : State) std, s.Inv → s.session = none → s.cfg.violation std = none →
    ∃ t, exec (.init std false) s = .next t ∧ t = { s with replies := s.replies ++ [.status 1#1] } ∧
      t.dmaEnabled = false ∧ t.feederEnabled = false ∧
      ∃ u, exec (.init std true) t = .next u ∧ u.inited = true

/-- R6, R153, R172 (decision D34): `INIT` refuses a configuration that breaks one of W1 to W7, by the name of a
condition it breaks, and a refused configuration does break it. -/
def Obligations.IllFormedConfigurationsAreRefused : Prop :=
  ∀ (s : State) std ok, s.session = none →
    (∀ w, exec (.init std ok) s = .refused (.illFormedConfig w) ↔ s.cfg.violation std = some w) ∧
    (s.cfg.violation std = none ↔
      (s.cfg.profile std).w1 = true ∧ s.cfg.w2 (s.cfg.profile std) = true ∧ (s.cfg.profile std).w3 = true ∧
      (s.cfg.profile std).w4 = true ∧ (s.cfg.profile std).w5 = true ∧ (s.cfg.profile std).w6 = true ∧
      s.cfg.w7 = true) ∧
    ∀ w, s.cfg.violation std = some w → (w, false) ∈ s.cfg.conditions std

/-- R155, R16, R190 (decision D28): `DEINIT` in `READY` clears `BCAST` and `IRQ_EN`, drops the pending events, empties
`OUT`, and no register and no store keeps a value; `STATUS` stays, since only a successful `INIT` clears it (R20, R171),
and so does the configuration. That what the session transmitted is appended to the trace `ended` is the model's choice
(log 25). -/
def Obligations.DeinitEndsTheSession : Prop :=
  ∀ (s : State) r, s.session = some r →
    exec .deinit s = .next { s with
      bcast := false, irqEn := false, pend := [], session := none, out := [], ended := s.ended ++ [s.out] }

/-- R156 (decision D30): `START` in `READY` sets `BCAST` and writes nothing else, is refused in `UNINIT`, and is
idempotent. -/
def Obligations.StartArmsTheNotification : Prop :=
  (∀ (s : State) r, s.session = some r → exec .start s = .next { s with bcast := true }) ∧
  (∀ s : State, s.session = none → exec .start s = .refused .wrongState) ∧
  ∀ s t : State, exec .start s = .next t → exec .start t = .next t

/-- R157 (decision D30): `STOP` in `READY` clears `BCAST` and writes nothing else (`IRQ_EN` and the stores stay), is
refused in `UNINIT`, and is idempotent. -/
def Obligations.StopDisarmsTheNotification : Prop :=
  (∀ (s : State) r, s.session = some r → exec .stop s = .next { s with bcast := false }) ∧
  (∀ s : State, s.session = none → exec .stop s = .refused .wrongState) ∧
  ∀ s t : State, exec .stop s = .next t → exec .stop t = .next t

/-- R158, R159, R162 (decision D18): in `READY` the queries `GET_FRAME`, `GET_WIDTH`, `GET_HEIGHT` answer `FRAME`, `FBW`
and `FBH` of the selected standard and write nothing. For an `FBW` or `FBH` of 2^32 or more, which 32 bits do not hold,
they complete with some value (the model's choice, log 31). -/
def Obligations.QueriesAnswerAndWriteNothing : Prop :=
  ∀ (s : State) r, s.session = some r →
    exec .getFrame s = .next { s with replies := s.replies ++ [.value r.frame] } ∧
    (∃ w : BitVec 32, ((s.cfg.profile r.std).fbw < 2 ^ 32 → w.toNat = (s.cfg.profile r.std).fbw) ∧
      exec .getWidth s = .next { s with replies := s.replies ++ [.value w] }) ∧
    ∃ h : BitVec 32, ((s.cfg.profile r.std).fbh < 2 ^ 32 → h.toNat = (s.cfg.profile r.std).fbh) ∧
      exec .getHeight s = .next { s with replies := s.replies ++ [.value h] }

/-- R163 (decision D36; R75): `GET_BACK` in `READY` loads `WSEL` with `(FRAME + 1)[0]`, which is `1 - FRAME[0]`, answers
it zero-extended, and writes nothing else. -/
def Obligations.GetBackLatchesTheBackHalf : Prop :=
  ∀ (s : State) r, s.session = some r →
    ∃ w : BitVec 1, w.toNat = (r.frame + 1#32).toNat % 2 ∧ w.toNat = 1 - r.frame.toNat % 2 ∧
      exec .getBack s = .next { s with
        session := some { r with wsel := w }
        replies := s.replies ++ [.value (BitVec.ofNat 32 w.toNat)] }

/-- R152: each `EOF` toggles the half the next `GET_BACK` hands out, across the wrap of `FRAME` too (R12). -/
def Obligations.HandedOutHalvesAlternate : Prop :=
  ∀ frame : BitVec 32, backHalf (frame + 1#32) = ~~~ backHalf frame ∧ backHalf frame = ~~~ frontHalf frame ∧
    backHalf frame = frontHalf (frame + 1#32)

/-! ### The Waveform Table and FILL -/

/-- R83 (decision D13): `EMIT(c)` with `WP < L` writes `WT[CUR][c]` at `TX[BUF][WP]`, adds 1 to `WP` and advances `CUR` by
one modulo `P`; nothing else changes. -/
def Obligations.EmitAppendsOneSample : Prop :=
  ∀ (c : Cfg) (lv : Nibble) (r : Session), r.cur < c.ring → r.wp < (c.profile r.std).l → r.buf < c.n →
    r.emit c lv = some { r with
      tx := r.tx.modify r.buf fun line => line.set r.wp (Cfg.sampleAt c r.cur lv)
      wp := r.wp + 1
      cur := (r.cur + 1) % c.ring }

/-- R84 (decision D12): for `i` in `0 .. qty-1`, `FILL(qty, lv)` writes `WT[(CUR+i) mod P][lv]` at `TX[BUF][WP+i]`; `WP`
grows by `qty` and `CUR` by `qty` modulo `P`; every other sample of every buffer and every other register stays. -/
def Obligations.FillCopiesTheRing : Prop :=
  ∀ (c : Cfg) (lv : Nibble) (qty : Nat) (r : Session), r.Stores c → r.buf < c.n →
    r.wp + qty ≤ (c.profile r.std).l →
    ∃ tx, r.fill c lv qty = some { r with tx := tx, wp := r.wp + qty, cur := (r.cur + qty) % c.ring } ∧
      tx.length = r.tx.length ∧
      (∀ b, b ≠ r.buf → tx[b]? = r.tx[b]?) ∧
      ∀ old, r.tx[r.buf]? = some old → ∃ new, tx[r.buf]? = some new ∧ new.length = old.length ∧
        ∀ k, k < old.length → new[k]? =
          if r.wp ≤ k ∧ k < r.wp + qty then some (Cfg.sampleAt c (r.cur + (k - r.wp)) lv) else old[k]?

/-! ### Fetch and dispatch -/

/-- R91, R66: for `0 <= SLN < TOTAL` the selector reads byte `SLN >> 1` of the selected table, its high nibble when `SLN`
is odd, else its low one. -/
def Obligations.LookupReadsTheNibble : Prop :=
  ∀ (c : Cfg) (r : Session) i b, 0 ≤ r.sln.toInt → r.sln.toInt < ((c.profile r.std).total : Int) →
    (c.profile r.std).vtm[i]? = some b →
    (r.sln.toNat = 2 * i → r.lookup c = some (b.extractLsb' 0 4)) ∧
    (r.sln.toNat = 2 * i + 1 → r.lookup c = some (b.extractLsb' 4 4))

/-- R99, R70, R171 (decision D27): a feeder step that fetches a code of 7 to 15 records `IllegalLineType(SLN, code)` in
`STATUS.FAULT` and writes nothing else. -/
def Obligations.ReservedCodesRaiseAFault : Prop :=
  ∀ (s : State) rest r b pend code, s.agenda = .feeder :: rest → s.irqEn = true → s.fault = none →
    s.pend = b :: pend → s.session = some r → r.lookup s.cfg = some code → 7 ≤ code.toNat →
    step s = .next { s with agenda := rest, fault := some (.illegalLineType r.sln code) }

/-- R109 (a), R171 (decision D34): `ACT` with `PIXLINE >= FBH` at entry records `RowOutOfRange(PIXLINE)` and writes
nothing else; the feeder step around it writes nothing else either, so `SLN`, `CUR` and `PEND` stay. -/
def Obligations.RowOutOfRangeRaisesAFault : Prop :=
  (∀ (s : State) r, s.session = some r → (s.cfg.profile r.std).fbh ≤ r.pixline.toNat →
    exec .act s = .next { s with fault := some (.rowOutOfRange r.pixline) }) ∧
  ∀ (s : State) rest r b pend, s.agenda = .feeder :: rest → s.irqEn = true → s.fault = none →
    s.pend = b :: pend → s.session = some r → r.lookup s.cfg = some 5#4 →
    (s.cfg.profile r.std).fbh ≤ r.pixline.toNat →
    step s = .next { s with agenda := rest, fault := some (.rowOutOfRange r.pixline) }

/-- R171 (decisions D27, D34): a feeder step that raises a fault records it and writes nothing else, and its reason is a
reserved code at slot `SLN` or an `ACT` with `PIXLINE >= FBH`; once `STATUS.FAULT` is set no feeder step is enabled, DMA
steps go on, the host commands do what they do without a fault, and only an `INIT` after a `DEINIT` changes it. -/
def Obligations.FaultStopsOnlyTheFeeder : Prop :=
  (∀ (s s' : State) q, s.fault = none → s.feederStep = .next s' → s'.fault = some q →
    s' = { s with fault := some q } ∧
    ∃ r, s.session = some r ∧
      ((∃ code : Nibble, r.lookup s.cfg = some code ∧ 7 ≤ code.toNat ∧ q = .illegalLineType r.sln code) ∨
        (r.lookup s.cfg = some 5#4 ∧ (s.cfg.profile r.std).fbh ≤ r.pixline.toNat ∧ q = .rowOutOfRange r.pixline))) ∧
  ∀ (s : State) q, s.fault = some q →
    s.feederEnabled = false ∧
    (∀ r line, s.session = some r → r.tx[r.txi]? = some line →
      ∃ s', s.dmaStep = .next s' ∧ s'.out = s.out ++ line ∧ s'.fault = some q ∧
        (s'.glitch = true ↔ s.glitch = true ∨ r.txi ∈ s.pend)) ∧
    (∀ i t, i.isCommand = true → (∀ std ok, i ≠ .init std ok) → exec i { s with fault := none } = .next t →
      exec i s = .next { t with fault := some q }) ∧
    ∀ s', step s = .next s' → s'.fault = some q ∨
      ∃ c rest std, s.agenda = .host c :: rest ∧ decodeCommand c = some (.init std true) ∧ s.session = none

/-! ### Line instructions -/

/-- R101, R102, R104, R105 with R85 and R100 (decisions D7, D8, D9): executed on a full-length buffer from its start,
`SS`, `LS`, `S2L` and `L2S` write their segment lists over the whole of `TX[BUF]`, exactly `L` samples from the
cursor on, advance `CUR` by `L` modulo `P`, and change no other state; `SS` also resets `PIXLINE`. -/
def Obligations.SyncLinesFillTheBuffer : Prop :=
  ∀ (s : State) r, s.Refilling r →
    let c := s.cfg
    let p := c.profile r.std
    let ssLevels := segmentLevels [(p.short, c.sync), (p.long, c.black), (p.short, c.sync),
      (p.l - (2 * p.short + p.long), c.black)]
    let lsLevels := segmentLevels [(p.long, c.sync), (p.gapLs, c.black), (p.long, c.sync),
      (p.l - (2 * p.long + p.gapLs), c.black)]
    let s2lLevels := if p.useSerr
      then segmentLevels [(p.short, c.sync), (p.long, c.black), (p.serr, c.sync),
        (p.l - (p.short + p.long + p.serr), c.black)]
      else segmentLevels [(p.short, c.sync), (p.long, c.black), (p.long, c.sync),
        (p.l - (p.short + 2 * p.long), c.black)]
    let l2sLevels := if p.useSerr
      then segmentLevels [(p.serr, c.sync), (p.normal, c.black), (p.short, c.sync),
        (p.l - (p.serr + p.normal + p.short), c.black)]
      else segmentLevels [(p.long, c.sync), (p.short, c.black), (p.short, c.sync),
        (p.l - (p.long + 2 * p.short), c.black)]
    (ssLevels.length = p.l ∧ lsLevels.length = p.l ∧ s2lLevels.length = p.l ∧ l2sLevels.length = p.l) ∧
    exec .ss s = .next (s.withSession { r.afterLine c ssLevels with pixline := 0#16 }) ∧
    exec .ls s = .next (s.withSession (r.afterLine c lsLevels)) ∧
    exec .s2l s = .next (s.withSession (r.afterLine c s2lLevels)) ∧
    exec .l2s s = .next (s.withSession (r.afterLine c l2sLevels))

/-- R103 (decision D10): `BK` writes sync, gap, colourburst and a final fill over the whole of `TX[BUF]`; the final
fill is gray exactly when `GRAY_TOP` holds and `PIXLINE` is 0, else black; nothing but `TX[BUF]`, `WP` and `CUR`
changes. -/
def Obligations.BlackLineIsGrayOnlyAtTheTop : Prop :=
  ∀ (s : State) r, s.Refilling r →
    let c := s.cfg
    let p := c.profile r.std
    ∃ g, (g = c.gray ∧ p.grayTop = true ∧ r.pixline = 0#16 ∨
        g = c.black ∧ ¬(p.grayTop = true ∧ r.pixline = 0#16)) ∧
      ∃ levels, levels = segmentLevels [(p.normal, c.sync), (p.gapBk, c.black), (p.burstBk, c.colourburst),
          (p.l - (p.normal + p.gapBk + p.burstBk), g)] ∧ levels.length = p.l ∧
        exec .bk s = .next (s.withSession (r.afterLine c levels))

/-- R110, R112 (decision D11): `EOF` writes the pulses of `SS` and a final fill, white with `EOF_WHITE_TAIL` and else
black, over the whole of `TX[BUF]`; `SLN` becomes -1 and `FRAME` grows by one with the 32-bit wrap; `PIXLINE` and all
other state stay. -/
def Obligations.EofClosesTheFrame : Prop :=
  ∀ (s : State) r, s.Refilling r →
    let c := s.cfg
    let p := c.profile r.std
    ∃ levels, levels = segmentLevels [(p.short, c.sync), (p.long, c.black), (p.short, c.sync),
        (p.l - (2 * p.short + p.long), if p.eofWhiteTail then c.white else c.black)] ∧ levels.length = p.l ∧
      ∃ sln : BitVec 16, sln.toInt = -1 ∧ ∃ frame : BitVec 32, frame.toNat = (r.frame.toNat + 1) % 2 ^ 32 ∧
        exec .eof s = .next (s.withSession { r.afterLine c levels with sln := sln, frame := frame })

/-- R106, R107, R108 (decision D17): with `PIXLINE < FBH`, `ACT` writes sync, gap, colourburst, blanking, the `FBW2` level
codes of row `PIXLINE` of the front half `FRAME[0]` in pixel order, and black to the end of the line; `PIXLINE`
grows by one, `FB` and all other state stay. -/
def Obligations.ActiveLineShowsTheRow : Prop :=
  ∀ (s : State) r, s.Refilling r → r.pixline.toNat < (s.cfg.profile r.std).fbh →
    let c := s.cfg
    let p := c.profile r.std
    ∃ row levels, rowLevels p r.fb (r.frame.toNat % 2) r.pixline.toNat = some row ∧ row.length = p.fbw2 ∧
      levels = segmentLevels [(p.normal, c.sync), (p.gapAct, c.black), (p.burst, c.colourburst),
          (p.blankAct, c.black)] ++ row ++ List.replicate (p.l - (p.hdr + p.fbw2)) c.black ∧
      levels.length = p.l ∧
      exec .act s = .next (s.withSession { r.afterLine c levels with pixline := r.pixline + 1#16 })

/-- R107, R150, R184: what `ACT` does depends on the front half of `FB` only: two states that differ in the back half
alone get the same line, and each keeps its own `FB`. -/
def Obligations.ActiveLineIgnoresTheBackHalf : Prop :=
  ∀ (s : State) r fb', s.Refilling r → Session.Stores s.cfg { r with fb := fb' } →
    r.pixline.toNat < (s.cfg.profile r.std).fbh →
    (∀ a, inHalf (s.cfg.profile r.std) (frontHalf r.frame).toNat a → Memory.read fb' a = Memory.read r.fb a) →
    ∃ r', exec .act s = .next (s.withSession r') ∧ r'.fb = r.fb ∧
      exec .act (s.withSession { r with fb := fb' }) = .next (s.withSession { r' with fb := fb' })

/-! ### Pixel writes -/

/-- R137, R138, R139, R140 (decisions D21, D36): in `READY`, with coordinates in range, the three writers read one byte of
the half `WSEL` selects and write it back with the nibble replaced, the bit cleared, or the bit set; no other byte
and no other state changes. -/
def Obligations.PixelWritersEditOneByte : Prop :=
  ∀ (s : State) r x y, s.session = some r → r.Stores s.cfg →
    let p := s.cfg.profile r.std
    let h := r.wsel.toNat
    (inRange p p.fbw2 x y = true → ∀ c : Nibble,
      ∃ b t, s.readFb (h * p.half + y.toNat * p.stride + x.toNat / 2) = some b ∧
        exec (.pixsd x y c) s = .next t ∧
        (∃ fb, t = s.withSession { r with fb := fb }) ∧
        t.readFb (h * p.half + y.toNat * p.stride + x.toNat / 2) =
          some (if x.toNat % 2 = 0 then highNibble b ++ c else c ++ lowNibble b) ∧
        ∀ a, a ≠ h * p.half + y.toNat * p.stride + x.toNat / 2 → t.readFb a = s.readFb a) ∧
    (inRange p p.fbw x y = true →
      ∃ b t0 t1, s.readFb (h * p.half + y.toNat * p.stride + x.toNat / 4) = some b ∧
        exec (.pixdd0 x y) s = .next t0 ∧ exec (.pixdd1 x y) s = .next t1 ∧
        (∃ fb, t0 = s.withSession { r with fb := fb }) ∧ (∃ fb, t1 = s.withSession { r with fb := fb }) ∧
        (∃ b0 b1, t0.readFb (h * p.half + y.toNat * p.stride + x.toNat / 4) = some b0 ∧
          t1.readFb (h * p.half + y.toNat * p.stride + x.toNat / 4) = some b1 ∧
          ∀ k, k < 8 →
            b0.getLsbD k = (if k = 2 * (x.toNat % 4) + s.cfg.ddBit then false else b.getLsbD k) ∧
            b1.getLsbD k = (if k = 2 * (x.toNat % 4) + s.cfg.ddBit then true else b.getLsbD k)) ∧
        ∀ a, a ≠ h * p.half + y.toNat * p.stride + x.toNat / 4 →
          t0.readFb a = s.readFb a ∧ t1.readFb a = s.readFb a)

/-- R135, R136: `TACK` is refused in `UNINIT`. In `READY` a colour above `MAXCOL` writes nothing; a colour below `DD_BASE`
completes as the single-density writer with `col[3:0]` when `0 <= x < FBW2` and `0 <= y < FBH`; any other colour
completes as the double-density writer, white exactly for `DD_WHITE`, when `0 <= x < FBW` and `0 <= y < FBH`; else nothing
is written. That a bound above 32767 compares as an integer is the model's choice (log 30). -/
def Obligations.TackRunsTheSelectedWriter : Prop :=
  ∀ (s : State) (x y : Coord) (col : Byte),
    (s.session = none → exec (.tack x y col) s = .refused .wrongState) ∧
    ∀ r, s.session = some r → r.Stores s.cfg →
      let p := s.cfg.profile r.std
      let inside := fun w : Nat => 0 ≤ x.toInt ∧ x.toInt < (w : Int) ∧ 0 ≤ y.toInt ∧ y.toInt < (p.fbh : Int)
      (s.cfg.maxCol < col.toNat → exec (.tack x y col) s = .next s) ∧
      (col.toNat ≤ s.cfg.maxCol → col.toNat < s.cfg.ddBase → ¬ inside p.fbw2 → exec (.tack x y col) s = .next s) ∧
      (col.toNat ≤ s.cfg.maxCol → s.cfg.ddBase ≤ col.toNat → ¬ inside p.fbw → exec (.tack x y col) s = .next s) ∧
      (col.toNat ≤ s.cfg.maxCol → col.toNat < s.cfg.ddBase → inside p.fbw2 →
        ∃ t, exec (.tack x y col) s = .next t ∧ exec (.pixsd x y (BitVec.ofNat 4 (col.toNat % 16))) s = .next t) ∧
      (col.toNat ≤ s.cfg.maxCol → s.cfg.ddBase ≤ col.toNat → inside p.fbw →
        ∃ t, exec (.tack x y col) s = .next t ∧
          (col.toNat = s.cfg.ddWhite → exec (.pixdd1 x y) s = .next t) ∧
          (col.toNat ≠ s.cfg.ddWhite → exec (.pixdd0 x y) s = .next t))

/-- R141 (decision D20 for negative coordinates): a `TACK` with an invalid colour or out-of-range
coordinates, negative ones among them, and a pixel writer with out-of-range coordinates leave every piece of state as
it is. That a bound above 32767 compares as an integer is the model's choice (log 30), and so
is the discard of a pixel writer run on its own (log 14). -/
def Obligations.OutOfRangeDrawingIsDiscarded : Prop :=
  ∀ (s : State) r (x y : Coord), s.session = some r →
    let p := s.cfg.profile r.std
    let outside := fun w : Nat => x.toInt < 0 ∨ (w : Int) ≤ x.toInt ∨ y.toInt < 0 ∨ (p.fbh : Int) ≤ y.toInt
    (∀ col : Byte, s.cfg.maxCol < col.toNat ∨ (col.toNat < s.cfg.ddBase ∧ outside p.fbw2) ∨
        (s.cfg.ddBase ≤ col.toNat ∧ outside p.fbw) →
      exec (.tack x y col) s = .next s) ∧
    (outside p.fbw2 → ∀ c, exec (.pixsd x y c) s = .next s) ∧
    (outside p.fbw → exec (.pixdd0 x y) s = .next s ∧ exec (.pixdd1 x y) s = .next s)

/-- R64 with R135 (decision D21): with the source's colour codes (`DD_BASE` 16, `DD_WHITE` and `MAXCOL` 17), `TACK` does
in every state what the instruction its colour decodes to in format `PX` does, and nothing when it decodes to none. -/
def Obligations.TackIsItsPixelDecoding : Prop :=
  ∀ (s : State) x y (col : Byte), s.cfg.ddBase = 16 → s.cfg.ddWhite = 17 → s.cfg.maxCol = 17 →
    (∀ i, decodePixel x y col = some i → exec (.tack x y col) s = exec i s) ∧
    (decodePixel x y col = none → ∀ r, s.session = some r → exec (.tack x y col) s = .next s)

/-- R137, R74, R67: an accepted single-density write makes the pixel read back its code and changes no other
single-density pixel of either half. -/
def Obligations.SingleDensityWriteChangesOnePixel : Prop :=
  ∀ (s t : State) r x y c, s.session = some r → r.Stores s.cfg → exec (.pixsd x y c) s = .next t →
    let p := s.cfg.profile r.std
    inRange p p.fbw2 x y = true →
    sdPixel p t.fb r.wsel.toNat x.toNat y.toNat = some c ∧
    ∀ h' x' y', h' < 2 → x' < p.fbw2 → y' < p.fbh → (h', x', y') ≠ (r.wsel.toNat, x.toNat, y.toNat) →
      sdPixel p t.fb h' x' y' = sdPixel p s.fb h' x' y'

/-- R140, R167, R47: whatever a `TACK` or a pixel writer does, it changes no state but `FB`, and no byte of `FB` outside
the half `WSEL` selects; the two halves do not overlap and cover `FB`. -/
def Obligations.DrawingStaysInTheSelectedHalf : Prop :=
  ∀ (s t : State) r i, s.session = some r → r.Stores s.cfg →
    (∃ x y col, i = .tack x y col) ∨ (∃ x y c, i = .pixsd x y c) ∨
      (∃ x y, i = .pixdd0 x y) ∨ (∃ x y, i = .pixdd1 x y) →
    exec i s = .next t →
    (∃ fb, t = s.withSession { r with fb := fb }) ∧
    (∀ a, ¬ inHalf (s.cfg.profile r.std) r.wsel.toNat a → t.readFb a = s.readFb a) ∧
    ∀ a, a < (s.cfg.profile r.std).fbsize →
      (inHalf (s.cfg.profile r.std) 0 a ↔ ¬ inHalf (s.cfg.profile r.std) 1 a)

/-- R108 with R137 and R107, the source's round trip: a single-density colour drawn at `(x, y)` into the half that is
shown comes out of the next `ACT` of row `y` as the sample of that level code at line offset `HDR + x`. -/
def Obligations.DrawnPixelComesOutOfTheLine : Prop :=
  ∀ (s : State) r x y (col : Byte), s.Refilling r → col.toNat < 16 → col.toNat ≤ s.cfg.maxCol →
    col.toNat < s.cfg.ddBase →
    let p := s.cfg.profile r.std
    inRange p p.fbw2 x y = true → r.pixline.toNat = y.toNat → r.wsel = frontHalf r.frame →
    ∃ t u r' shown, exec (.tack x y col) s = .next t ∧ exec .act t = .next u ∧ u.session = some r' ∧
      r'.tx[r.buf]? = some shown ∧
      shown[p.hdr + x.toNat]? = some (Cfg.sampleAt s.cfg (r.cur + p.hdr + x.toNat) (BitVec.ofNat 4 col.toNat))

/-! ### Encoding -/

/-- R62, R63, R64, R71: decoding an encoded instruction gives it back, whatever its operands; an item that decodes is
the encoding of its instruction but for the operand fields its command ignores; and an instruction is decoded only
from its own format. -/
def Obligations.DecodeAndEncodeAgree : Prop :=
  (∀ i, decode (encode i) = .ok i) ∧
  (∀ item i, decode item = .ok i → encode i = item.canonical ∧ item.wellFormedFor i = true)

/-- R61, R66, R78, R91 (decision D31 for the assembler): every line program of line instructions assembles, to half as
many bytes rounded up, and the slot of each of its instructions decodes to that instruction; the padding slot of an
odd program holds `EOF`. -/
def Obligations.AssembledProgramsAreFetchedBack : Prop :=
  ∀ program : List Instr, programWellFormed program = true →
    ∃ vtm, assemble program = some vtm ∧ vtm.length = (program.length + 1) / 2 ∧
      (∀ k i, program[k]? = some i → ∃ code, slotCode vtm k = some code ∧ decodeLine code = some i) ∧
      (program.length % 2 = 1 → slotCode vtm program.length = some 6#4)

/-- Words written out from the tables of R61 to R64 decode to what they stand for: line codes 3 and 5, command 4 with its
operands, command 0 with `std` 1 and `alloc_ok` 1, colours 0x0B, 16 and 17; line code 7, command 9 and colour 18 to
nothing (R70, R71). -/
def Obligations.WrittenOutWordsDecode : Prop :=
  decode (.line 0b0011#4) = .ok .s2l ∧ decode (.line 0b0101#4) = .ok .act ∧
  decode (.command { cmd := 0b0100#4, std := 0#1, allocOk := 0#1, x := 0xFFFF#16, y := 0x0002#16, col := 0x63#8 }) =
    .ok (.tack 0xFFFF#16 0x0002#16 0x63#8) ∧
  decode (.command { cmd := 0b0000#4, std := 1#1, allocOk := 1#1, x := 0#16, y := 0#16, col := 0#8 }) =
    .ok (.init .pal true) ∧
  decode (.pixel 3#16 2#16 0b00001011#8) = .ok (.pixsd 3#16 2#16 0b1011#4) ∧
  decode (.pixel 3#16 2#16 0b00010000#8) = .ok (.pixdd0 3#16 2#16) ∧
  decode (.pixel 3#16 2#16 0b00010001#8) = .ok (.pixdd1 3#16 2#16) ∧
  decode (.line 0b0111#4) = .error (.reservedLine 0b0111#4) ∧
  decode (.command (bareCommand 0b1001#4)) = .error (.reservedCommand 0b1001#4) ∧
  decode (.pixel 3#16 2#16 0b00010010#8) = .error (.invalidColour 0b00010010#8)

/-- R96, R97 (decision D5, the spec's own tables; log 21): the default tables are what the assembler of R78 makes of the
two printed line programs, and have 263 and 313 bytes. -/
def Obligations.DefaultTablesAreThePrintedPrograms : Prop :=
  assemble (List.replicate 3 .ss ++ List.replicate 3 .ls ++ List.replicate 3 .ss ++ List.replicate 22 .bk ++
    List.replicate 220 .act ++ List.replicate 11 .bk ++ List.replicate 3 .ss ++ [.s2l] ++ List.replicate 2 .ls ++
    [.l2s] ++ List.replicate 3 .ss ++ List.replicate 21 .bk ++ List.replicate 220 .act ++ List.replicate 11 .bk ++
    [.eof]) = some ntscProfile.vtm ∧ ntscProfile.vtm.length = 263 ∧
  assemble (List.replicate 2 .ls ++ [.l2s] ++ List.replicate 2 .ss ++ List.replicate 29 .bk ++
    List.replicate 264 .act ++ List.replicate 12 .bk ++ List.replicate 2 .ss ++ [.s2l] ++ List.replicate 2 .ls ++
    List.replicate 3 .ss ++ List.replicate 28 .bk ++ List.replicate 264 .act ++ List.replicate 12 .bk ++
    List.replicate 2 .ss ++ [.eof]) = some palProfile.vtm ∧ palProfile.vtm.length = 313

/-- R6: the default profiles satisfy W1 to W7 with any `N >= 2`, any Waveform Table of at least one row and any level
codes in 0..15 (the fields R5 leaves OPEN). -/
def Obligations.DefaultProfilesAreWellFormed : Prop :=
  ∀ c : Cfg, c.ntsc = ntscProfile → c.pal = palProfile → 2 ≤ c.n → c.wt ≠ [] → c.lvSync ≤ 15 → c.lvBlack ≤ 15 →
    c.lvGray ≤ 15 → c.lvWhite ≤ 15 → c.lvBurst ≤ 15 → c.ddBit ≤ 1 →
    c.violation .ntsc = none ∧ c.violation .pal = none

/-! ### The whole machine -/

/-- The invariant holds at power-on, and so does ring order. -/
def Obligations.ResetIsGood : Prop := State.reset.Inv ∧ State.reset.RingOrder

/-- Every step keeps the invariant: stores keep their shape, `SLN` stays a slot, `PIXLINE` agrees with the line program,
the interrupt is enabled exactly in `READY`, `OUT` is empty in `UNINIT`, and no fault is ever recorded (R11, R13, R130,
R171, R178, R190). -/
def Obligations.StepKeepsTheInvariant : Prop :=
  ∀ s s' : State, s.Inv → step s = .next s' → s'.Inv

/-- From a good state no step ends in a fault of the model, and a step is refused only at the command port: the
next turn is a host command (R171, R172). -/
def Obligations.GoodStatesNeverFault : Prop :=
  ∀ s : State, s.Inv → (∀ f, step s ≠ .fault f) ∧
    ∀ q, step s = .refused q → ∃ c rest, s.agenda = .host c :: rest

/-- R123, R126: from a good state in ring order, every step keeps ring order; and a DMA step that starts with
`GLITCH` clear sets it exactly when all `N` buffers are pending, so the deadline is `|PEND| <= N-1`. -/
def Obligations.GlitchIsTheMissedDeadline : Prop :=
  (∀ s s' : State, s.Inv → s.RingOrder → step s = .next s' → s'.RingOrder) ∧
  ∀ (s s' : State) r rest, s.Inv → s.RingOrder → s.agenda = .dma :: rest → s.session = some r → s.glitch = false →
    step s = .next s' → (s'.glitch = true ↔ s.pend.length = s.cfg.n)

/-- R128, R126: before a deadline is missed, a DMA step and a feeder step that are both enabled may be taken in either
order, to the same state: the output does not depend on the interleaving of the two agents. -/
def Obligations.AgentsCommuteBeforeTheDeadline : Prop :=
  ∀ (s : State) r, s.Inv → s.RingOrder → s.session = some r → s.glitch = false → s.pend ≠ [] →
    s.pend.length < s.cfg.n →
    ∃ a b t, s.dmaStep = .next a ∧ a.feederStep = .next t ∧ s.feederStep = .next b ∧ b.dmaStep = .next t

/-- R124, R17, R112, R123: an enabled feeder turn in a good state completes: it services exactly the oldest event; `SLN`
goes to 0 and `FRAME` up by one after `EOF`, else `SLN` goes up by one and `FRAME` stays. -/
def Obligations.FeederStepServicesOneEvent : Prop :=
  ∀ (s : State) r rest, s.Inv → s.agenda = .feeder :: rest → s.session = some r → s.pend ≠ [] →
    ∃ code s' r', r.lookup s.cfg = some code ∧ step s = .next s' ∧ s'.session = some r' ∧ s'.pend = s.pend.tail ∧
      (code = 6#4 → r'.sln = 0#16 ∧ r'.frame = r.frame + 1#32) ∧
      (code ≠ 6#4 → r'.sln.toInt = r.sln.toInt + 1 ∧ r'.frame = r.frame)

/-- R152, R12: within a session `FRAME` changes in one way only: a feeder turn runs `EOF`, and `FRAME` grows by one. -/
def Obligations.FrameAdvancesOnlyAtEof : Prop :=
  ∀ (s s' : State) r r', s.session = some r → step s = .next s' → s'.session = some r' →
    r'.frame = r.frame ∨ (s.RunsEof ∧ r'.frame = r.frame + 1#32)

/-- R10, R184: within a session the counters `SLN`, `FRAME`, `PIXLINE`, `CUR`, `WP`, `BUF` and the pool `TX` change only in
the interrupt context: a step whose turn is not the feeder's leaves them. -/
def Obligations.CountersMoveOnlyInTheFeeder : Prop :=
  ∀ (s s' t : State) turn r r', s.session = some r → s.nextTurn = (turn, t) → turn ≠ .feeder →
    step s = .next s' → s'.session = some r' →
    r'.sln = r.sln ∧ r'.frame = r.frame ∧ r'.pixline = r.pixline ∧ r'.cur = r.cur ∧ r'.wp = r.wp ∧
      r'.buf = r.buf ∧ r'.tx = r.tx

/-- R184, R203: within a session only a `TACK` changes `FB`, and only `GET_BACK` changes `WSEL`. -/
def Obligations.OnlyTackWritesTheFramebuffer : Prop :=
  ∀ (s s' : State) r r', s.session = some r → step s = .next s' → s'.session = some r' →
    (r'.fb ≠ r.fb → ∃ c rest, s.agenda = .host c :: rest ∧ c.cmd = 4#4) ∧
    (r'.wsel ≠ r.wsel → ∃ c rest, s.agenda = .host c :: rest ∧ c.cmd = 8#4)

/-- R56: within a session a buffer changes only while the feeder owns it: it is the one named by the oldest pending
event. -/
def Obligations.FeederWritesOnlyItsBuffer : Prop :=
  ∀ (s s' : State) r r' b, s.session = some r → step s = .next s' → s'.session = some r' →
    r'.tx[b]? ≠ r.tx[b]? → s.pend.head? = some b

/-- R122, R153, R155, R190, R26: `OUT` changes in three ways only: a DMA turn appends the buffer `TXI` as it stands,
whole, and a successful `INIT` in `UNINIT` and a `DEINIT` in `READY` empty it. That a `DEINIT` keeps the session's `OUT`,
and nothing else writes there, in the trace `ended` is the model's choice (log 25). -/
def Obligations.OutputGrowsByWholeLines : Prop :=
  ∀ s s' : State, step s = .next s' →
    (s'.out = s.out ∧ s'.ended = s.ended) ∨
    (∃ c rest std, s.agenda = .host c :: rest ∧ decodeCommand c = some (.init std true) ∧ s.session = none ∧
      s'.out = [] ∧ s'.ended = s.ended) ∨
    (∃ c rest, s.agenda = .host c :: rest ∧ decodeCommand c = some .deinit ∧ s.session ≠ none ∧
      s'.out = [] ∧ s'.ended = s.ended ++ [s.out]) ∨
    ∃ t r line, s.nextTurn = (.dma, t) ∧ s.session = some r ∧ r.tx[r.txi]? = some line ∧ s'.out = s.out ++ line ∧
      s'.ended = s.ended

/-- R28, R55, R81: no step changes the configuration: the tables and the profiles are immutable. -/
def Obligations.ConfigurationIsImmutable : Prop :=
  ∀ s s' : State, step s = .next s' → s'.cfg = s.cfg

/-- R161: `BCAST` has no effect on any other state: a step from two states that differ in `BCAST` alone answers alike
but for `BCAST`. -/
def Obligations.NotificationBitHasNoEffect : Prop :=
  ∀ (s : State) b, forgetBcast (step { s with bcast := b }) = forgetBcast (step s)

/-- R52, R166: a current handle (`WSEL` the back half) is what `INIT` and `GET_BACK` leave, every step but one that runs
`EOF` keeps it, and while it is current no host command changes a byte of the half being shown. -/
def Obligations.PunctualClientNeverTears : Prop :=
  (∀ (s t : State) std, exec (.init std true) s = .next t → t.Punctual) ∧
  (∀ s t : State, exec .getBack s = .next t → t.Punctual) ∧
  (∀ s s' : State, s.Punctual → step s = .next s' → ¬ s.RunsEof → s'.Punctual) ∧
  ∀ (s s' : State) c rest r, s.Inv → s.Punctual → s.agenda = .host c :: rest → s.session = some r →
    step s = .next s' → s'.session ≠ none →
    ∀ a, inHalf (s.cfg.profile r.std) (frontHalf r.frame).toNat a → s'.readFb a = s.readFb a

/-- R166, R140: after an `EOF` with no new `GET_BACK` the handle is stale: `WSEL` is the half being shown, and the next
accepted single-density `TACK` writes it, with no fault, no refusal and no status. -/
def Obligations.LateClientTears : Prop :=
  ∀ (s s' : State) r, s.Inv → s.Punctual → s.RunsEof → s.session = some r → step s = .next s' →
    ∃ r', s'.session = some r' ∧ r'.wsel = frontHalf r'.frame ∧
      ∀ x y (col : Byte), col.toNat ≤ s.cfg.maxCol → col.toNat < s.cfg.ddBase → col.toNat < 16 →
        inRange (s.cfg.profile r.std) (s.cfg.profile r.std).fbw2 x y = true →
        ∃ t, exec (.tack x y col) s' = .next t ∧
          sdPixel (s.cfg.profile r.std) t.fb (frontHalf r'.frame).toNat x.toNat y.toNat =
            some (BitVec.ofNat 4 col.toNat) ∧
          t.fault = s'.fault ∧ t.glitch = s'.glitch ∧ t.replies = s'.replies

/-! ### Turns of the DMA agent in `UNINIT` -/

/-- R122: in `UNINIT` no DMA step is enabled, and a DMA turn, scheduled or taken because the schedule is empty, changes
nothing but the schedule. That such a turn passes is the model's choice (log 7, log 6). -/
def Obligations.DisabledDmaTurnsPass : Prop :=
  ∀ s : State, s.session = none →
    s.dmaEnabled = false ∧
    (∀ rest, s.agenda = .dma :: rest → step s = .next { s with agenda := rest }) ∧
    (s.agenda = [] → s.feederEnabled = false → step s = .next s)
end

