-- ==== Sys2Proof/Laws/Fill.lean ====
section
/-! SUPPORT. What `EMIT`, `FILL`, segment lists and the active row do, said once: every one of them is a list of emitted
level codes, and emitting a list of codes overwrites consecutive samples of the buffer with the waveform. -/

namespace Sys2Proof.Machine

open Sys2Proof

/-! ### Overwriting consecutive samples -/

/-- `old` with `new` written from offset `k` on. -/
def overwrite (old : List Sample) (k : Nat) : List Sample → List Sample
  | [] => old
  | v :: vs => overwrite (old.set k v) (k + 1) vs

@[simp] theorem overwrite_length (old : List Sample) (k : Nat) (new : List Sample) :
    (overwrite old k new).length = old.length := by
  induction new generalizing old k with
  | nil => rfl
  | cons v vs ih => simp [overwrite, ih]

theorem overwrite_getElem? (old : List Sample) (k : Nat) (new : List Sample) (j : Nat) (h : j < old.length) :
    (overwrite old k new)[j]? = if k ≤ j ∧ j < k + new.length then new[j - k]? else old[j]? := by
  induction new generalizing old k with
  | nil => simp [overwrite]
  | cons v vs ih =>
    rw [overwrite, ih _ _ (by simpa using h)]
    by_cases hj : j = k
    · subst hj
      rw [if_neg (by omega), if_pos (by simp), List.getElem?_set_self h]
      simp
    · rw [List.getElem?_set_ne (by omega)]
      by_cases hk : k ≤ j ∧ j < k + (v :: vs).length
      · rw [if_pos hk, if_pos (by simp at hk; omega), show j - k = j - (k + 1) + 1 by omega]
        simp
      · rw [if_neg hk, if_neg (by simp at hk ⊢; omega)]

/-- Overwriting a whole buffer leaves nothing of the old content. -/
theorem overwrite_all (old new : List Sample) (h : new.length = old.length) : overwrite old 0 new = new := by
  apply List.ext_getElem?
  intro j
  by_cases hj : j < old.length
  · rw [overwrite_getElem? _ _ _ _ hj, if_pos (by omega)]
    simp
  · rw [List.getElem?_eq_none (by simp; omega), List.getElem?_eq_none (by omega)]

/-! ### The waveform -/

@[simp] theorem waveform_length (c : Cfg) (cur : Nat) (levels : List Nibble) :
    (Cfg.waveform c cur levels).length = levels.length := by simp [Cfg.waveform]

theorem waveform_getElem? (c : Cfg) (cur : Nat) (levels : List Nibble) (k : Nat) :
    (Cfg.waveform c cur levels)[k]? = levels[k]?.map fun lv => Cfg.sampleAt c (cur + k) lv := by
  simp [Cfg.waveform, List.getElem?_mapIdx]

theorem waveform_cons (c : Cfg) (cur : Nat) (lv : Nibble) (levels : List Nibble) :
    Cfg.waveform c cur (lv :: levels) = Cfg.sampleAt c cur lv :: Cfg.waveform c (cur + 1) levels := by
  simp only [Cfg.waveform, List.mapIdx_cons, Nat.add_zero]
  congr 1
  apply List.ext_getElem? 
  intro k
  simp only [List.getElem?_mapIdx]
  congr 1
  funext lv
  congr 1
  omega

/-- Only the position in the ring counts. -/
theorem sampleAt_mod (c : Cfg) (k : Nat) (lv : Nibble) : Cfg.sampleAt c (k % c.ring) lv = Cfg.sampleAt c k lv := by
  simp [Cfg.sampleAt]

theorem waveform_mod (c : Cfg) (cur : Nat) (levels : List Nibble) :
    Cfg.waveform c (cur % c.ring) levels = Cfg.waveform c cur levels := by
  apply List.ext_getElem?
  intro k
  rw [waveform_getElem?, waveform_getElem?]
  congr 1
  funext lv
  rw [← sampleAt_mod, ← sampleAt_mod c (cur + k)]
  congr 1
  simp [Nat.add_mod]

/-- The sample `EMIT` takes is the one the statements name. -/
theorem sampleAt_of_row (c : Cfg) (cur : Nat) (lv : Nibble) (row : Vector Sample 16) (hc : cur < c.ring)
    (h : c.wt[cur]? = some row) : Cfg.sampleAt c cur lv = row.get lv.toFin := by
  simp only [Cfg.sampleAt, Nat.mod_eq_of_lt hc, h]

/-! ### EMIT -/

/-- All that `EMIT` can do (R83). -/
theorem emit_some {c : Cfg} {lv : Nibble} {r r' : Session} (h : r.emit c lv = some r') :
    r.cur < c.ring ∧ r.wp < (c.profile r.std).l ∧ r.buf < c.n ∧
      r' = { r with
        tx := r.tx.modify r.buf fun old => old.set r.wp (Cfg.sampleAt c r.cur lv)
        wp := r.wp + 1
        cur := (r.cur + 1) % c.ring } := by
  unfold Session.emit at h
  split at h
  · cases h
  · rename_i row hrow
    have hc : r.cur < c.ring := (List.getElem?_eq_some_iff.mp hrow).1
    split at h
    · rename_i hb
      refine ⟨hc, hb.1, hb.2, ?_⟩
      rw [sampleAt_of_row c r.cur lv row hc hrow]
      simpa using h.symm
    · cases h

/-- `EMIT` answers wherever the table, the line and the pool have the places it needs. -/
theorem emit_eq {c : Cfg} {r : Session} (lv : Nibble) (hc : r.cur < c.ring) (hw : r.wp < (c.profile r.std).l)
    (hb : r.buf < c.n) :
    r.emit c lv = some { r with
      tx := r.tx.modify r.buf fun old => old.set r.wp (Cfg.sampleAt c r.cur lv)
      wp := r.wp + 1
      cur := (r.cur + 1) % c.ring } := by
  have hrow : c.wt[r.cur]? = some (c.wt[r.cur]'hc) := List.getElem?_eq_getElem hc
  rw [sampleAt_of_row c r.cur lv _ hc hrow]
  simp [Session.emit, hrow, hw, hb]

/-! ### Lists of codes -/

theorem emits_append (c : Cfg) (xs ys : List Nibble) (r : Session) :
    r.emits c (xs ++ ys) = (r.emits c xs).bind (Session.emits c ys) := by
  induction xs generalizing r with
  | nil => rfl
  | cons lv xs ih =>
    simp only [List.cons_append, Session.emits, Option.bind_assoc]
    congr 1
    funext r'
    exact ih r'

theorem emits_trans {c : Cfg} {xs ys : List Nibble} {r r1 r2 : Session} (h1 : r.emits c xs = some r1)
    (h2 : r1.emits c ys = some r2) : r.emits c (xs ++ ys) = some r2 := by
  rw [emits_append, h1]
  exact h2

/-- `FILL(qty, lv)` emits `qty` times the code `lv` (R84). -/
theorem fill_eq_emits (c : Cfg) (lv : Nibble) (qty : Nat) (r : Session) :
    r.fill c lv qty = r.emits c (List.replicate qty lv) := by
  induction qty generalizing r with
  | zero => rfl
  | succ qty ih =>
    simp only [Session.fill, List.replicate_succ, Session.emits]
    congr 1
    funext r'
    exact ih r'

/-- A segment list emits its level codes in order (R8). -/
theorem fills_eq_emits (c : Cfg) (segs : List (Nat × Nibble)) (r : Session) :
    r.fills c segs = r.emits c (segmentLevels segs) := by
  induction segs generalizing r with
  | nil => rfl
  | cons seg segs ih =>
    obtain ⟨qty, lv⟩ := seg
    simp only [Session.fills, segmentLevels, List.flatMap_cons] at ih ⊢
    rw [emits_append, fill_eq_emits]
    congr 1
    funext r'
    exact ih r'

/-- All that emitting a list of codes can do: the pool and the two positions change, nothing else. -/
theorem emits_some {c : Cfg} {levels : List Nibble} {r r' : Session} (h : r.emits c levels = some r') :
    r' = { r with tx := r'.tx, wp := r.wp + levels.length, cur := r'.cur } ∧
      (r.cur < c.ring → r'.cur = (r.cur + levels.length) % c.ring) ∧
      r'.tx = r.tx.modify r.buf (fun old => overwrite old r.wp (Cfg.waveform c r.cur levels)) := by
  induction levels generalizing r with
  | nil =>
    simp only [Session.emits, Option.some.injEq] at h
    subst h
    refine ⟨by simp, fun hc => (Nat.mod_eq_of_lt (by simpa using hc)).symm, ?_⟩
    simp only [overwrite, Cfg.waveform, List.mapIdx_nil]
    exact (List.modify_id _ _).symm
  | cons lv levels ih =>
    simp only [Session.emits] at h
    obtain ⟨r1, h1, h2⟩ := Option.bind_eq_some_iff.mp h
    obtain ⟨hc, -, -, rfl⟩ := emit_some h1
    obtain ⟨e1, e2, e3⟩ := ih h2
    have hpos : 0 < c.ring := Nat.lt_of_le_of_lt (Nat.zero_le _) hc
    refine ⟨?_, ?_, ?_⟩
    · rw [e1]
      simp only [List.length_cons]
      congr 1
      omega
    · intro _
      rw [e2 (Nat.mod_lt _ hpos)]
      simp only [List.length_cons, Nat.mod_add_mod]
      congr 1
      omega
    · rw [e3]
      simp only [waveform_cons, overwrite, waveform_mod]
      apply List.ext_getElem?
      intro j
      simp only [List.getElem?_modify]
      by_cases hj : r.buf = j <;> simp [hj, Function.comp_def]

/-- Emitting a list of codes answers wherever the line has room for it. -/
theorem emits_isSome {c : Cfg} {levels : List Nibble} {r : Session} (hc : r.cur < c.ring) (hb : r.buf < c.n)
    (hw : r.wp + levels.length ≤ (c.profile r.std).l) : (r.emits c levels).isSome := by
  induction levels generalizing r with
  | nil => rfl
  | cons lv levels ih =>
    simp only [List.length_cons] at hw
    simp only [Session.emits, emit_eq lv hc (by omega) hb, Option.bind_some]
    exact ih (Nat.mod_lt _ (Nat.lt_of_le_of_lt (Nat.zero_le _) hc)) hb (by simp only; omega)

/-! ### The active row -/

/-- The active portion emits the codes of the read units, low nibble first (R108). -/
theorem row_some {c : Cfg} {units base : Nat} {r r' : Session} (h : Session.row c units base r = some r') :
    ∃ levels, levels.length = 4 * units ∧ r.emits c levels = some r' := by
  induction units generalizing base r with
  | zero => exact ⟨[], rfl, h⟩
  | succ units ih =>
    simp only [Session.row] at h
    split at h
    · cases h
    · rename_i u hu
      obtain ⟨r1, h1, h2⟩ := Option.bind_eq_some_iff.mp h
      obtain ⟨levels, hl, he⟩ := ih h2
      refine ⟨unitCodes u ++ levels, by simp [unitCodes, hl]; omega, ?_⟩
      rw [emits_append, h1]
      exact he

end Sys2Proof.Machine
end

