-- ==== Sys2Proof/Laws/Memory.lean ====
section
/-! SUPPORT. The framebuffer as a list of cells: read after write, other bytes stay, and the canonical form is kept. -/

namespace Sys2Proof.Machine

open Sys2Proof

@[simp] theorem memory_put_addresses (m : List Host.Cell) (a : Nat) (v : Byte) :
    (Memory.put m a v).map Prod.fst = m.map Prod.fst := by
  induction m with
  | nil => rfl
  | cons cell m ih =>
    simp only [Memory.put, List.map_cons] at ih ⊢
    rw [ih]
    by_cases h : cell.1 = a <;> simp [h]

/-- A byte can be read exactly where the memory lists it. -/
theorem memory_read_isSome_iff (m : List Host.Cell) (a : Nat) :
    (Memory.read m a).isSome ↔ a ∈ m.map Prod.fst := by
  induction m with
  | nil => simp [Memory.read]
  | cons cell m ih =>
    obtain ⟨b, v⟩ := cell
    by_cases h : b = a
    · simp [Memory.read, h]
    · simp only [Memory.read, if_neg h, ih, List.map_cons, List.mem_cons]
      constructor
      · exact Or.inr
      · rintro (h' | h')
        · exact absurd h'.symm h
        · exact h'

theorem memory_read_put_same (m : List Host.Cell) (a : Nat) (v : Byte) (h : (Memory.read m a).isSome) :
    Memory.read (Memory.put m a v) a = some v := by
  induction m with
  | nil => simp [Memory.read] at h
  | cons cell m ih =>
    obtain ⟨b, w⟩ := cell
    by_cases hb : b = a
    · simp [Memory.put, Memory.read, hb]
    · simp only [Memory.read, if_neg hb] at h
      have := ih h
      simp only [Memory.put, List.map_cons, if_neg hb, Memory.read] at this ⊢
      exact this

theorem memory_read_put_other (m : List Host.Cell) (a b : Nat) (v : Byte) (h : b ≠ a) :
    Memory.read (Memory.put m a v) b = Memory.read m b := by
  induction m with
  | nil => rfl
  | cons cell m ih =>
    obtain ⟨c, w⟩ := cell
    simp only [Memory.put, List.map_cons] at ih ⊢
    by_cases hc : c = a
    · subst hc
      simp only [↓reduceIte, Memory.read, if_neg (Ne.symm h)]
      exact ih
    · simp only [if_neg hc, Memory.read]
      by_cases hcb : c = b
      · simp [hcb]
      · simp only [if_neg hcb]
        exact ih

/-- The canonical form depends on the addresses only. -/
theorem memory_wf_iff (m : List Host.Cell) :
    Memory.wf m = true ↔ (m.map Prod.fst).IsChain (· < ·) := by
  induction m with
  | nil => simp [Memory.wf]
  | cons x m ih =>
    cases m with
    | nil => simp [Memory.wf]
    | cons y m => simp only [Memory.wf, Bool.and_eq_true, decide_eq_true_eq, ih, List.map_cons, List.isChain_cons_cons]

/-- A write keeps the canonical form. -/
theorem memory_put_wf (m : List Host.Cell) (a : Nat) (v : Byte) :
    Memory.wf (Memory.put m a v) = Memory.wf m := by
  rw [Bool.eq_iff_iff, memory_wf_iff, memory_wf_iff, memory_put_addresses]

/-- The memory a session starts with lists exactly the bytes of the framebuffer. -/
@[simp] theorem drawFb_addresses (k size : Nat) : (drawFb k size).map Prod.fst = List.range size := by
  simp [drawFb, List.range_eq_range', Function.comp_def]

/-- A memory that lists exactly `0 .. n-1` is in the canonical form. -/
theorem memory_wf_of_range (m : List Host.Cell) (n : Nat) (h : m.map Prod.fst = List.range n) :
    Memory.wf m = true := by
  rw [memory_wf_iff, h]
  exact List.pairwise_lt_range.isChain

theorem drawTx_length (k n l : Nat) : (drawTx k n l).length = n := by simp [drawTx]

theorem drawTx_lines (k n l : Nat) : ∀ buffer ∈ drawTx k n l, buffer.length = l := by
  simp only [drawTx, List.mem_map]
  rintro _ ⟨b, _, rfl⟩
  simp

end Sys2Proof.Machine
end

