-- ==== Sys2Proof/Laws/State.lean ====
section
/-! SUPPORT. One lemma per field per named update of the state, so that no later proof unfolds an update. -/

namespace Sys2Proof.Machine

open Sys2Proof

section Raise
variable (s : State) (q : FaultReason)
@[simp] theorem raise_cfg : (s.raise q).cfg = s.cfg := rfl
@[simp] theorem raise_session : (s.raise q).session = s.session := rfl
@[simp] theorem raise_irqEn : (s.raise q).irqEn = s.irqEn := rfl
@[simp] theorem raise_bcast : (s.raise q).bcast = s.bcast := rfl
@[simp] theorem raise_glitch : (s.raise q).glitch = s.glitch := rfl
@[simp] theorem raise_fault : (s.raise q).fault = some q := rfl
@[simp] theorem raise_pend : (s.raise q).pend = s.pend := rfl
@[simp] theorem raise_out : (s.raise q).out = s.out := rfl
@[simp] theorem raise_ended : (s.raise q).ended = s.ended := rfl
@[simp] theorem raise_replies : (s.raise q).replies = s.replies := rfl
@[simp] theorem raise_agenda : (s.raise q).agenda = s.agenda := rfl
@[simp] theorem raise_turns : (s.raise q).turns = s.turns := rfl
@[simp] theorem raise_draws : (s.raise q).draws = s.draws := rfl
end Raise

section Reply
variable (s : State) (v : Reply)
@[simp] theorem reply_cfg : (s.reply v).cfg = s.cfg := rfl
@[simp] theorem reply_session : (s.reply v).session = s.session := rfl
@[simp] theorem reply_irqEn : (s.reply v).irqEn = s.irqEn := rfl
@[simp] theorem reply_bcast : (s.reply v).bcast = s.bcast := rfl
@[simp] theorem reply_glitch : (s.reply v).glitch = s.glitch := rfl
@[simp] theorem reply_fault : (s.reply v).fault = s.fault := rfl
@[simp] theorem reply_pend : (s.reply v).pend = s.pend := rfl
@[simp] theorem reply_out : (s.reply v).out = s.out := rfl
@[simp] theorem reply_ended : (s.reply v).ended = s.ended := rfl
@[simp] theorem reply_replies : (s.reply v).replies = s.replies ++ [v] := rfl
@[simp] theorem reply_agenda : (s.reply v).agenda = s.agenda := rfl
@[simp] theorem reply_turns : (s.reply v).turns = s.turns := rfl
@[simp] theorem reply_draws : (s.reply v).draws = s.draws := rfl
end Reply

section WithSession
variable (s : State) (r : Session)
@[simp] theorem withSession_cfg : (s.withSession r).cfg = s.cfg := rfl
@[simp] theorem withSession_session : (s.withSession r).session = some r := rfl
@[simp] theorem withSession_irqEn : (s.withSession r).irqEn = s.irqEn := rfl
@[simp] theorem withSession_bcast : (s.withSession r).bcast = s.bcast := rfl
@[simp] theorem withSession_glitch : (s.withSession r).glitch = s.glitch := rfl
@[simp] theorem withSession_fault : (s.withSession r).fault = s.fault := rfl
@[simp] theorem withSession_pend : (s.withSession r).pend = s.pend := rfl
@[simp] theorem withSession_out : (s.withSession r).out = s.out := rfl
@[simp] theorem withSession_ended : (s.withSession r).ended = s.ended := rfl
@[simp] theorem withSession_replies : (s.withSession r).replies = s.replies := rfl
@[simp] theorem withSession_agenda : (s.withSession r).agenda = s.agenda := rfl
@[simp] theorem withSession_turns : (s.withSession r).turns = s.turns := rfl
@[simp] theorem withSession_draws : (s.withSession r).draws = s.draws := rfl
@[simp] theorem withSession_fb : (s.withSession r).fb = r.fb := rfl
end WithSession

section EnterFeeder
variable (s : State) (b : Nat)
@[simp] theorem enterFeeder_cfg : (s.enterFeeder b).cfg = s.cfg := rfl
@[simp] theorem enterFeeder_session :
    (s.enterFeeder b).session = s.session.map fun r => { r with buf := b, wp := 0 } := rfl
@[simp] theorem enterFeeder_irqEn : (s.enterFeeder b).irqEn = s.irqEn := rfl
@[simp] theorem enterFeeder_bcast : (s.enterFeeder b).bcast = s.bcast := rfl
@[simp] theorem enterFeeder_glitch : (s.enterFeeder b).glitch = s.glitch := rfl
@[simp] theorem enterFeeder_fault : (s.enterFeeder b).fault = s.fault := rfl
@[simp] theorem enterFeeder_pend : (s.enterFeeder b).pend = s.pend := rfl
@[simp] theorem enterFeeder_out : (s.enterFeeder b).out = s.out := rfl
@[simp] theorem enterFeeder_ended : (s.enterFeeder b).ended = s.ended := rfl
@[simp] theorem enterFeeder_replies : (s.enterFeeder b).replies = s.replies := rfl
@[simp] theorem enterFeeder_agenda : (s.enterFeeder b).agenda = s.agenda := rfl
@[simp] theorem enterFeeder_turns : (s.enterFeeder b).turns = s.turns := rfl
@[simp] theorem enterFeeder_draws : (s.enterFeeder b).draws = s.draws := rfl
end EnterFeeder

section AfterInit
variable (s : State) (std : Std)
@[simp] theorem afterInit_cfg : (s.afterInit std).cfg = s.cfg := rfl
@[simp] theorem afterInit_session : (s.afterInit std).session = some (freshSession s.cfg std s.draws) := rfl
@[simp] theorem afterInit_irqEn : (s.afterInit std).irqEn = true := rfl
@[simp] theorem afterInit_bcast : (s.afterInit std).bcast = false := rfl
@[simp] theorem afterInit_glitch : (s.afterInit std).glitch = false := rfl
@[simp] theorem afterInit_fault : (s.afterInit std).fault = none := rfl
@[simp] theorem afterInit_pend : (s.afterInit std).pend = [] := rfl
@[simp] theorem afterInit_out : (s.afterInit std).out = [] := rfl
@[simp] theorem afterInit_ended : (s.afterInit std).ended = s.ended := rfl
@[simp] theorem afterInit_replies : (s.afterInit std).replies = s.replies := rfl
@[simp] theorem afterInit_agenda : (s.afterInit std).agenda = s.agenda := rfl
@[simp] theorem afterInit_turns : (s.afterInit std).turns = s.turns := rfl
@[simp] theorem afterInit_draws : (s.afterInit std).draws = s.draws + 1 := rfl
end AfterInit

section AfterDeinit
variable (s : State)
@[simp] theorem afterDeinit_cfg : s.afterDeinit.cfg = s.cfg := rfl
@[simp] theorem afterDeinit_session : s.afterDeinit.session = none := rfl
@[simp] theorem afterDeinit_irqEn : s.afterDeinit.irqEn = false := rfl
@[simp] theorem afterDeinit_bcast : s.afterDeinit.bcast = false := rfl
@[simp] theorem afterDeinit_glitch : s.afterDeinit.glitch = s.glitch := rfl
@[simp] theorem afterDeinit_fault : s.afterDeinit.fault = s.fault := rfl
@[simp] theorem afterDeinit_pend : s.afterDeinit.pend = [] := rfl
@[simp] theorem afterDeinit_out : s.afterDeinit.out = [] := rfl
@[simp] theorem afterDeinit_ended : s.afterDeinit.ended = s.ended ++ [s.out] := rfl
@[simp] theorem afterDeinit_replies : s.afterDeinit.replies = s.replies := rfl
@[simp] theorem afterDeinit_agenda : s.afterDeinit.agenda = s.agenda := rfl
@[simp] theorem afterDeinit_turns : s.afterDeinit.turns = s.turns := rfl
@[simp] theorem afterDeinit_draws : s.afterDeinit.draws = s.draws := rfl
end AfterDeinit

end Sys2Proof.Machine
end

