-- ==== Sys2Proof/Laws/Exec.lean ====
section
/-! SUPPORT. What each meaning can do when it answers a next state: one inversion lemma per shared operation and per
instruction. -/

namespace Sys2Proof.Machine

open Sys2Proof

/-! ### Shared operations -/

/-- A command that needs `READY` answers from a session. -/
theorem whenReady_next {s t : State} {f : Session → Result} (h : s.whenReady f = .next t) :
    ∃ r, s.session = some r ∧ f r = .next t := by
  unfold State.whenReady at h
  split at h
  · cases h
  · rename_i r hr
    exact ⟨r, hr, h⟩

theorem whenReady_ready {s : State} {r : Session} (f : Session → Result) (h : s.session = some r) :
    s.whenReady f = f r := by simp [State.whenReady, h]

theorem whenReady_uninit {s : State} (f : Session → Result) (h : s.session = none) :
    s.whenReady f = .refused .wrongState := by simp [State.whenReady, h]

/-- A size that 32 bits hold is answered as it is (R63, R159, R162). -/
theorem queryResult_toNat {n : Nat} (h : n < 2 ^ 32) : (queryResult n).toNat = n := by
  rw [queryResult, if_pos h]
  exact Nat.mod_eq_of_lt h

/-- A line instruction that answers has run its generator over the session. -/
theorem runLine_next {s t : State} {g : Session → Option Session} (h : s.runLine g = .next t) :
    ∃ r r', s.session = some r ∧ g r = some r' ∧ t = s.withSession r' := by
  unfold State.runLine at h
  split at h
  · cases h
  · rename_i r hr
    split at h
    · cases h
    · rename_i r' hr'
      exact ⟨r, r', hr, hr', by simpa using h.symm⟩

theorem runLine_eq {s : State} {r r' : Session} {g : Session → Option Session} (hs : s.session = some r)
    (hg : g r = some r') : s.runLine g = .next (s.withSession r') := by simp [State.runLine, hs, hg]

/-- A pixel edit that answers has replaced the byte it read. -/
theorem editFb_next {s t : State} {r : Session} {a : Nat} {f : Byte → Byte} (h : s.editFb r a f = .next t) :
    ∃ b, Memory.read r.fb a = some b ∧ t = s.withSession { r with fb := Memory.put r.fb a (f b) } := by
  unfold State.editFb at h
  split at h
  · cases h
  · rename_i b hb
    exact ⟨b, hb, by simpa using h.symm⟩

theorem editFb_eq {s : State} {r : Session} {a : Nat} {b : Byte} (f : Byte → Byte)
    (h : Memory.read r.fb a = some b) :
    s.editFb r a f = .next (s.withSession { r with fb := Memory.put r.fb a (f b) }) := by
  simp [State.editFb, h]

/-- The single-density writer discards or edits one byte of the selected half (R137, R141). -/
theorem writeSd_next {s t : State} {r : Session} {x y : Coord} {c : Nibble} (h : s.writeSd r x y c = .next t) :
    (inRange (s.cfg.profile r.std) (s.cfg.profile r.std).fbw2 x y = false ∧ t = s) ∨
    (inRange (s.cfg.profile r.std) (s.cfg.profile r.std).fbw2 x y = true ∧
      ∃ b, Memory.read r.fb (sdAddress (s.cfg.profile r.std) r.wsel.toNat x y) = some b ∧
        t = s.withSession { r with
          fb := Memory.put r.fb (sdAddress (s.cfg.profile r.std) r.wsel.toNat x y) (sdMerge x c b) }) := by
  simp only [State.writeSd] at h
  split at h
  · rename_i hin
    exact .inr ⟨hin, editFb_next h⟩
  · rename_i hin
    exact .inl ⟨by simpa using hin, by simpa using h.symm⟩

/-- The double-density writer discards or edits one byte of the selected half (R138, R139, R141). -/
theorem writeDd_next {s t : State} {r : Session} {x y : Coord} {white : Bool}
    (h : s.writeDd r x y white = .next t) :
    (inRange (s.cfg.profile r.std) (s.cfg.profile r.std).fbw x y = false ∧ t = s) ∨
    (inRange (s.cfg.profile r.std) (s.cfg.profile r.std).fbw x y = true ∧
      ∃ b, Memory.read r.fb (ddAddress (s.cfg.profile r.std) r.wsel.toNat x y) = some b ∧
        t = s.withSession { r with
          fb := Memory.put r.fb (ddAddress (s.cfg.profile r.std) r.wsel.toNat x y)
            (ddMerge (ddBitOf s.cfg x) white b) }) := by
  simp only [State.writeDd] at h
  split at h
  · rename_i hin
    exact .inr ⟨hin, editFb_next h⟩
  · rename_i hin
    exact .inl ⟨by simpa using hin, by simpa using h.symm⟩

/-- A `TACK` that answers has discarded, or run the writer its colour selects (R135). -/
theorem execTack_next {s t : State} {x y : Coord} {col : Byte} (h : execTack x y col s = .next t) :
    ∃ r, s.session = some r ∧ (t = s ∨ s.writeSd r x y (lowNibble col) = .next t ∨
      ∃ white, s.writeDd r x y white = .next t) := by
  obtain ⟨r, hr, h⟩ := whenReady_next h
  refine ⟨r, hr, ?_⟩
  split at h
  · exact .inl (by simpa using h.symm)
  · split at h
    · exact .inr (.inl h)
    · exact .inr (.inr ⟨_, h⟩)

/-- A drawing instruction that answers has at most changed `FB`, and there only one listed byte. -/
theorem drawing_next {i : Instr} {s t : State}
    (hi : (∃ x y col, i = .tack x y col) ∨ (∃ x y c, i = .pixsd x y c) ∨ (∃ x y, i = .pixdd0 x y) ∨
      ∃ x y, i = .pixdd1 x y)
    (h : exec i s = .next t) :
    ∃ r, s.session = some r ∧ (t = s ∨ ∃ a v, (Memory.read r.fb a).isSome ∧
      t = s.withSession { r with fb := Memory.put r.fb a v }) := by
  have sd : ∀ {r x y c}, s.writeSd r x y c = .next t → t = s ∨ ∃ a v, (Memory.read r.fb a).isSome ∧
      t = s.withSession { r with fb := Memory.put r.fb a v } := by
    intro r x y c h
    obtain ⟨-, rfl⟩ | ⟨-, b, hb, rfl⟩ := writeSd_next h
    · exact .inl rfl
    · exact .inr ⟨_, _, by simp [hb], rfl⟩
  have dd : ∀ {r x y w}, s.writeDd r x y w = .next t → t = s ∨ ∃ a v, (Memory.read r.fb a).isSome ∧
      t = s.withSession { r with fb := Memory.put r.fb a v } := by
    intro r x y c h
    obtain ⟨-, rfl⟩ | ⟨-, b, hb, rfl⟩ := writeDd_next h
    · exact .inl rfl
    · exact .inr ⟨_, _, by simp [hb], rfl⟩
  obtain ⟨x, y, col, rfl⟩ | ⟨x, y, c, rfl⟩ | ⟨x, y, rfl⟩ | ⟨x, y, rfl⟩ := hi
  · obtain ⟨r, hr, h | h | ⟨w, h⟩⟩ := execTack_next h
    · exact ⟨r, hr, .inl h⟩
    · exact ⟨r, hr, sd h⟩
    · exact ⟨r, hr, dd h⟩
  · obtain ⟨r, hr, h⟩ := whenReady_next h
    exact ⟨r, hr, sd h⟩
  · obtain ⟨r, hr, h⟩ := whenReady_next h
    exact ⟨r, hr, dd h⟩
  · obtain ⟨r, hr, h⟩ := whenReady_next h
    exact ⟨r, hr, dd h⟩

/-! ### INIT -/

/-- An `INIT` that answers was issued in `UNINIT` with a well-formed configuration; it has reset the block or, when
the allocation failed, only answered (R153, R154). -/
theorem execInit_next {s t : State} {std : Std} {ok : Bool} (h : execInit std ok s = .next t) :
    s.session = none ∧ s.cfg.violation std = none ∧
      ((ok = true ∧ t = (s.afterInit std).reply (.status 0#1)) ∨ (ok = false ∧ t = s.reply (.status 1#1))) := by
  unfold execInit at h
  split at h
  · cases h
  · rename_i hs
    split at h
    · cases h
    · rename_i hv
      refine ⟨hs, hv, ?_⟩
      cases ok
      · exact .inr ⟨rfl, by simpa using h.symm⟩
      · exact .inl ⟨rfl, by simpa using h.symm⟩

/-! ### Line instructions -/

/-- What a line instruction does to the registers beside `TX[BUF]`, `WP` and `CUR`: only `SS`, `ACT` and `EOF` have
effects of their own (R101 to R112). -/
def lineSln (i : Instr) (sln : BitVec 16) : BitVec 16 := if i = .eof then -1#16 else sln

/-- See `lineSln`. -/
def lineFrame (i : Instr) (frame : BitVec 32) : BitVec 32 := if i = .eof then frame + 1#32 else frame

/-- See `lineSln`. -/
def linePixline (i : Instr) (pixline : BitVec 16) : BitVec 16 :=
  if i = .ss then 0#16 else if i = .act then pixline + 1#16 else pixline

/-- All that a line instruction can do to the session it runs over: it has emitted a list of level codes, and has the
register effects of its own rule (R100). -/
def Session.LineEffect (c : Cfg) (i : Instr) (r r' : Session) : Prop :=
  ∃ levels r1, r.emits c levels = some r1 ∧
    r' = { r1 with
      sln := lineSln i r1.sln, frame := lineFrame i r1.frame, pixline := linePixline i r1.pixline }

/-- The generator of a line instruction; none for the others. -/
def lineGenerator (c : Cfg) : Instr → Option (Session → Option Session)
  | .ss => some (Session.genSs c)
  | .ls => some (Session.genLs c)
  | .bk => some (Session.genBk c)
  | .s2l => some (Session.genS2l c)
  | .l2s => some (Session.genL2s c)
  | .act => some (Session.genAct c)
  | .eof => some (Session.genEof c)
  | _ => none

/-- Every generator that answers has a line effect. -/
theorem lineGenerator_some {c : Cfg} {i : Instr} {g : Session → Option Session} {r r' : Session}
    (hg : lineGenerator c i = some g) (h : g r = some r') : r.LineEffect c i r' := by
  cases i <;> simp only [lineGenerator, Option.some.injEq, reduceCtorEq] at hg <;> subst hg
  case ss =>
    obtain ⟨r1, h1, rfl⟩ := Option.map_eq_some_iff.mp h
    exact ⟨_, r1, (fills_eq_emits ..).symm.trans h1, rfl⟩
  case ls => exact ⟨_, r', (fills_eq_emits ..).symm.trans h, rfl⟩
  case bk => exact ⟨_, r', (fills_eq_emits ..).symm.trans h, rfl⟩
  case s2l =>
    simp only [Session.genS2l] at h
    split at h <;> exact ⟨_, r', (fills_eq_emits ..).symm.trans h, rfl⟩
  case l2s =>
    simp only [Session.genL2s] at h
    split at h <;> exact ⟨_, r', (fills_eq_emits ..).symm.trans h, rfl⟩
  case act =>
    obtain ⟨r3, h3, rfl⟩ := Option.map_eq_some_iff.mp h
    obtain ⟨r2, h2, h3⟩ := Option.bind_eq_some_iff.mp h3
    obtain ⟨r1, h1, h2⟩ := Option.bind_eq_some_iff.mp h2
    obtain ⟨levels, -, h2⟩ := row_some h2
    rw [fills_eq_emits] at h1
    rw [fill_eq_emits] at h3
    exact ⟨_, r3, emits_trans (emits_trans h1 h2) h3, rfl⟩
  case eof =>
    obtain ⟨r1, h1, rfl⟩ := Option.map_eq_some_iff.mp h
    exact ⟨_, r1, (fills_eq_emits ..).symm.trans h1, rfl⟩

/-- `exec` of a line instruction runs its generator, but for the row check of `ACT` (R109). -/
theorem exec_line (i : Instr) (s : State) (g : Session → Option Session) (hg : lineGenerator s.cfg i = some g) :
    exec i s = s.runLine g ∨
      (i = .act ∧ ∃ r, s.session = some r ∧ r.rowOutside s.cfg = true ∧
        exec i s = .next (s.raise (.rowOutOfRange r.pixline))) := by
  cases i <;> simp only [lineGenerator, Option.some.injEq, reduceCtorEq] at hg <;> subst hg <;>
    try exact .inl rfl
  simp only [exec, execAct]
  split
  · rename_i r hr
    split
    · rename_i hrow
      exact .inr ⟨trivial, r, hr, hrow, rfl⟩
    · exact .inl rfl
  · exact .inl rfl

/-- A line instruction that answers has raised the one fault of `ACT`, or has had a line effect on the session. -/
theorem exec_line_next {i : Instr} {s t : State} (hi : i.isLine = true) (h : exec i s = .next t) :
    (i = .act ∧ ∃ r, s.session = some r ∧ r.rowOutside s.cfg = true ∧
      t = s.raise (.rowOutOfRange r.pixline)) ∨
    ∃ r r', s.session = some r ∧ t = s.withSession r' ∧ r.LineEffect s.cfg i r' := by
  obtain ⟨g, hg⟩ : ∃ g, lineGenerator s.cfg i = some g := by cases i <;> simp_all [lineGenerator, Instr.isLine]
  obtain h' | ⟨rfl, r, hr, hrow, h'⟩ := exec_line i s g hg
  · rw [h'] at h
    obtain ⟨r, r', hr, hr', rfl⟩ := runLine_next h
    exact .inr ⟨r, r', hr, rfl, lineGenerator_some hg hr'⟩
  · rw [h'] at h
    exact .inl ⟨rfl, r, hr, hrow, by simpa using h.symm⟩

/-- A line effect keeps every register but `TX`, `WP`, `CUR` and those its own rule names. -/
theorem lineEffect_frame {c : Cfg} {i : Instr} {r r' : Session} (h : r.LineEffect c i r') :
    r'.std = r.std ∧ r'.wsel = r.wsel ∧ r'.buf = r.buf ∧ r'.txi = r.txi ∧ r'.fb = r.fb ∧
      r'.sln = lineSln i r.sln ∧ r'.frame = lineFrame i r.frame ∧ r'.pixline = linePixline i r.pixline := by
  obtain ⟨levels, r1, h1, rfl⟩ := h
  obtain ⟨e, -, -⟩ := emits_some h1
  rw [e]
  simp

/-- A line effect changes no buffer but `BUF`, and keeps the length of each. -/
theorem lineEffect_tx {c : Cfg} {i : Instr} {r r' : Session} (h : r.LineEffect c i r') :
    r'.tx.length = r.tx.length ∧ (∀ b, b ≠ r.buf → r'.tx[b]? = r.tx[b]?) ∧
      r'.tx.map List.length = r.tx.map List.length := by
  obtain ⟨levels, r1, h1, rfl⟩ := h
  obtain ⟨-, -, e⟩ := emits_some h1
  simp only [e]
  refine ⟨by simp, fun b hb => ?_, ?_⟩
  · rw [List.getElem?_modify]
    simp [Ne.symm hb]
  · apply List.ext_getElem?
    intro j
    simp only [List.getElem?_map, List.getElem?_modify]
    cases r.tx[j]? with
    | none => rfl
    | some old => by_cases hj : r.buf = j <;> simp [hj]

end Sys2Proof.Machine
end

