-- ==== Sys2Proof/Laws/PerInstr.lean ====
section
/-! SUPPORT. Statements about each instruction as syntax, one lemma per constructor. -/

namespace Sys2Proof.Laws.Format

open Sys2Proof

/-- The instruction belongs to exactly one of the three formats (30_encoding.md R60), and its encoding is an item of
that format. -/
def Statement (i : Instr) : Prop :=
  ((i.isLine && !i.isCommand && !i.isPixel) || (!i.isLine && i.isCommand && !i.isPixel) ||
    (!i.isLine && !i.isCommand && i.isPixel)) = true ∧
  (encode i).wellFormedFor i = true

theorem ss : Statement .ss := ⟨rfl, rfl⟩
theorem ls : Statement .ls := ⟨rfl, rfl⟩
theorem bk : Statement .bk := ⟨rfl, rfl⟩
theorem s2l : Statement .s2l := ⟨rfl, rfl⟩
theorem l2s : Statement .l2s := ⟨rfl, rfl⟩
theorem act : Statement .act := ⟨rfl, rfl⟩
theorem eof : Statement .eof := ⟨rfl, rfl⟩
theorem init (std : Std) (allocOk : Bool) : Statement (.init std allocOk) := ⟨rfl, rfl⟩
theorem deinit : Statement .deinit := ⟨rfl, rfl⟩
theorem start : Statement .start := ⟨rfl, rfl⟩
theorem stop : Statement .stop := ⟨rfl, rfl⟩
theorem tack (x y : Coord) (col : Byte) : Statement (.tack x y col) := ⟨rfl, rfl⟩
theorem getFrame : Statement .getFrame := ⟨rfl, rfl⟩
theorem getWidth : Statement .getWidth := ⟨rfl, rfl⟩
theorem getHeight : Statement .getHeight := ⟨rfl, rfl⟩
theorem getBack : Statement .getBack := ⟨rfl, rfl⟩
theorem pixsd (x y : Coord) (c : Nibble) : Statement (.pixsd x y c) := ⟨rfl, rfl⟩
theorem pixdd0 (x y : Coord) : Statement (.pixdd0 x y) := ⟨rfl, rfl⟩
theorem pixdd1 (x y : Coord) : Statement (.pixdd1 x y) := ⟨rfl, rfl⟩

end Sys2Proof.Laws.Format
end

