-- ==== Sys2Proof/Laws/Step.lean ====
section
/-! SUPPORT. What a step can do: the turn it takes, and the inversion of each kind of turn. -/

namespace Sys2Proof.Machine

open Sys2Proof

/-- Taking the next turn touches the schedule only. -/
theorem nextTurn_state (s : State) : s.nextTurn.2 = { s with agenda := s.agenda.tail, turns := s.nextTurn.2.turns } := by
  unfold State.nextTurn
  split
  · rename_i h
    simp [h]
  · rename_i h
    split
    · simp [h]
    · obtain ⟨⟩ := s
      cases h
      rfl

/-- A host turn comes from the schedule. -/
theorem nextTurn_host {s t : State} {c : Command} (h : s.nextTurn = (.host c, t)) :
    ∃ rest, s.agenda = .host c :: rest ∧ t = { s with agenda := rest } := by
  unfold State.nextTurn at h
  split at h
  · rename_i turn rest ha
    obtain ⟨rfl, rfl⟩ := by simpa using h
    exact ⟨rest, ha, rfl⟩
  · split at h
    · by_cases hf : Config.feederFirst s.turns <;> simp [hf] at h
    · simp at h

theorem nextTurn_cons {s : State} {turn : Turn} {rest : List Turn} (h : s.agenda = turn :: rest) :
    s.nextTurn = (turn, { s with agenda := rest }) := by simp [State.nextTurn, h]

/-- Every step is a DMA step, a feeder step or a host command (R50), taken in the state `t` that differs from `s` in
the schedule only. -/
theorem step_cases {s s' : State} (h : step s = .next s') :
    ∃ t, (s.nextTurn = (.dma, t) ∧ t.dmaStep = .next s') ∨ (s.nextTurn = (.feeder, t) ∧ t.feederStep = .next s') ∨
      ∃ c i, s.nextTurn = (.host c, t) ∧ decodeCommand c = some i ∧ exec i t = .next s' := by
  unfold step at h
  split at h
  · rename_i t ht
    exact ⟨t, .inl ⟨ht, h⟩⟩
  · rename_i t ht
    exact ⟨t, .inr (.inl ⟨ht, h⟩)⟩
  · rename_i c t ht
    unfold State.hostStep at h
    split at h
    · rename_i i hi
      exact ⟨t, .inr (.inr ⟨c, i, ht, hi, h⟩)⟩
    · cases h

/-- All that a DMA step can do (R122). -/
theorem dmaStep_next {s s' : State} (h : s.dmaStep = .next s') :
    (s.session = none ∧ s' = s) ∨
    ∃ r buffer, s.session = some r ∧ r.tx[r.txi]? = some buffer ∧
      s' = { s with
        glitch := glitchAfter s.glitch s.pend r.txi
        out := s.out ++ buffer
        pend := s.pend ++ [r.txi]
        session := some { r with txi := (r.txi + 1) % s.cfg.n } } := by
  unfold State.dmaStep at h
  split at h
  · rename_i hs
    exact .inl ⟨hs, by simpa using h.symm⟩
  · rename_i r hr
    split at h
    · cases h
    · rename_i buffer hb
      exact .inr ⟨r, buffer, hr, hb, by simpa using h.symm⟩

/-- What the feeder has found when it runs a line instruction (R124). -/
theorem fetch_line {s : State} {i : Instr} {b : Nat} (h : s.fetch = .line i b) :
    s.feederEnabled = true ∧ ∃ r pend code, s.session = some r ∧ s.pend = b :: pend ∧
      r.lookup s.cfg = some code ∧ decodeLine code = some i := by
  unfold State.fetch at h
  split at h
  · rename_i he
    refine ⟨he, ?_⟩
    split at h
    · rename_i r b' pend hr hp
      split at h
      · cases h
      · rename_i code hc
        split at h
        · rename_i i' hi
          obtain ⟨rfl, rfl⟩ := by simpa using h
          exact ⟨r, pend, code, hr, hp, hc, hi⟩
        · cases h
    · cases h
    · cases h
  · cases h

theorem fetch_eq_line {s : State} {r : Session} {b : Nat} {pend : List Nat} {code : Nibble} {i : Instr}
    (he : s.feederEnabled = true) (hr : s.session = some r) (hp : s.pend = b :: pend)
    (hc : r.lookup s.cfg = some code) (hi : decodeLine code = some i) : s.fetch = .line i b := by
  simp [State.fetch, he, hr, hp, hc, hi]

/-- A code that decodes is a line instruction's. -/
theorem decodeLine_isLine {code : Nibble} {i : Instr} (h : decodeLine code = some i) : i.isLine = true := by
  unfold decodeLine at h
  split at h <;> first | (obtain rfl := by simpa using h) ; rfl | cases h

/-- What the feeder has found when it raises a fault: a reserved code at slot `SLN` (R99). -/
theorem fetch_reserved {s : State} {q : FaultReason} (h : s.fetch = .reserved q) :
    s.feederEnabled = true ∧ ∃ r code, s.session = some r ∧ r.lookup s.cfg = some code ∧
      decodeLine code = none ∧ q = .illegalLineType r.sln code := by
  unfold State.fetch at h
  split at h
  · rename_i he
    refine ⟨he, ?_⟩
    split at h
    · rename_i r b' pend hr hp
      split at h
      · cases h
      · rename_i code hc
        split at h
        · cases h
        · rename_i hi
          exact ⟨r, code, hr, hc, hi, by simpa using h.symm⟩
    · cases h
    · cases h
  · cases h

/-- The return of the completion interrupt (R180). -/
theorem leaveFeeder_next {t s' : State} (h : t.leaveFeeder = .next s') :
    ∃ r, t.session = some r ∧ r.wp = (t.cfg.profile r.std).l ∧
      s' = { t with session := some { r with sln := r.sln + 1#16 }, pend := t.pend.tail } := by
  unfold State.leaveFeeder at h
  split at h
  · cases h
  · rename_i r hr
    split at h
    · rename_i hw
      exact ⟨r, hr, hw, by simpa using h.symm⟩
    · cases h

/-- All that a feeder turn can do (R124, R99, R109): nothing, record a fault, or run one line instruction over the
released buffer, add 1 to `SLN` and drop the event. -/
theorem feederStep_next {s s' : State} (h : s.feederStep = .next s') :
    (s.fetch = .idle ∧ s' = s) ∨
    (s.feederEnabled = true ∧ ∃ q, s' = s.raise q) ∨
    ∃ i b r r', s.fetch = .line i b ∧ i.isLine = true ∧ s.session = some r ∧
      Session.LineEffect s.cfg i { r with buf := b, wp := 0 } r' ∧ r'.wp = (s.cfg.profile r'.std).l ∧
      s' = { s with session := some { r' with sln := r'.sln + 1#16 }, pend := s.pend.tail } := by
  unfold State.feederStep at h
  split at h
  · rename_i hf
    exact .inl ⟨hf, by simpa using h.symm⟩
  · rename_i i b hf
    obtain ⟨he, r, pend, code, hr, hp, hc, hi⟩ := fetch_line hf
    have hline := decodeLine_isLine hi
    cases hx : exec i (s.enterFeeder b) with
    | next t =>
      rw [hx] at h
      simp only [State.finishFeeder] at h
      split at h
      · rename_i q _
        exact .inr (.inl ⟨he, q, by simpa using h.symm⟩)
      · rename_i hq
        obtain ⟨-, r1, hr1, hrow, rfl⟩ | ⟨r1, r', hr1, rfl, heff⟩ := exec_line_next hline hx
        · simp at hq
        · obtain ⟨r2, hr2, hw, rfl⟩ := leaveFeeder_next h
          obtain rfl : r' = r2 := by simpa using hr2
          obtain rfl : { r with buf := b, wp := 0 } = r1 := by simpa [hr] using hr1
          exact .inr (.inr ⟨i, b, r, r', hf, hline, hr, heff, hw, rfl⟩)
    | fault f => rw [hx] at h; cases h
    | refused q => rw [hx] at h; cases h
  · rename_i q hf
    exact .inr (.inl ⟨(fetch_reserved hf).1, q, by simpa using h.symm⟩)
  · cases h

/-! ### Host commands -/

/-- All that a host command can do to the state when it answers (R153 to R163, R135). -/
theorem command_next {c : Command} {i : Instr} {s s' : State} (hi : decodeCommand c = some i)
    (h : exec i s = .next s') :
    (∃ std ok, i = .init std ok ∧ s.session = none ∧ s.cfg.violation std = none ∧
      ((ok = true ∧ s' = (s.afterInit std).reply (.status 0#1)) ∨ (ok = false ∧ s' = s.reply (.status 1#1)))) ∨
    ∃ r, s.session = some r ∧
      ((i = .deinit ∧ s' = s.afterDeinit) ∨
       (∃ v, (i = .start ∨ i = .stop) ∧ s' = { s with bcast := v }) ∨
       (∃ x y col, i = .tack x y col ∧ (s' = s ∨ ∃ a v, (Memory.read r.fb a).isSome ∧
          s' = s.withSession { r with fb := Memory.put r.fb a v })) ∨
       (∃ v, (i = .getFrame ∨ i = .getWidth ∨ i = .getHeight) ∧ s' = s.reply v) ∨
       (i = .getBack ∧ ∃ v, s' = (s.withSession { r with wsel := backHalf r.frame }).reply v)) := by
  unfold decodeCommand at hi
  split at hi <;> first | (obtain rfl := by simpa using hi) | cases hi
  · exact .inl ⟨_, _, rfl, execInit_next h⟩
  · obtain ⟨r, hr, h⟩ := whenReady_next h
    exact .inr ⟨r, hr, .inl ⟨rfl, by simpa using h.symm⟩⟩
  · obtain ⟨r, hr, h⟩ := whenReady_next h
    exact .inr ⟨r, hr, .inr (.inl ⟨true, .inl rfl, by simpa using h.symm⟩)⟩
  · obtain ⟨r, hr, h⟩ := whenReady_next h
    exact .inr ⟨r, hr, .inr (.inl ⟨false, .inr rfl, by simpa using h.symm⟩)⟩
  · obtain ⟨r, hr, h⟩ := drawing_next (.inl ⟨_, _, _, rfl⟩) h
    exact .inr ⟨r, hr, .inr (.inr (.inl ⟨_, _, _, rfl, h⟩))⟩
  · obtain ⟨r, hr, h⟩ := whenReady_next h
    exact .inr ⟨r, hr, .inr (.inr (.inr (.inl ⟨_, .inl rfl, by simpa using h.symm⟩)))⟩
  · obtain ⟨r, hr, h⟩ := whenReady_next h
    exact .inr ⟨r, hr, .inr (.inr (.inr (.inl ⟨_, .inr (.inl rfl), by simpa using h.symm⟩)))⟩
  · obtain ⟨r, hr, h⟩ := whenReady_next h
    exact .inr ⟨r, hr, .inr (.inr (.inr (.inl ⟨_, .inr (.inr rfl), by simpa using h.symm⟩)))⟩
  · obtain ⟨r, hr, h⟩ := whenReady_next h
    exact .inr ⟨r, hr, .inr (.inr (.inr (.inr ⟨rfl, _, by simpa using h.symm⟩)))⟩

end Sys2Proof.Machine
end

