-- ==== Sys2Proof/Tests/Slice0.lean ====
section
/-! SUPPORT. Small tests, expected results from spec/95_test_vectors.md or by hand from the rule named, and a witness
for each statement that has hypotheses. -/

namespace Sys2Proof.Tests

open Sys2Proof Sys2Proof.Machine

/-! ### The configuration TCFG (95_test_vectors.md section 2.2) -/

/-- The profile of TCFG with line program T1 = `SS, BK, ACT, ACT, BK, LS, S2L, L2S, EOF`. -/
def tProfile : Profile where
  l := 16
  total := 9
  vtmlen := 5
  vtm := [0x20#8, 0x55#8, 0x12#8, 0x43#8, 0x66#8]
  short := 2
  long := 5
  normal := 3
  serr := 4
  burst := 2
  fbh := 2
  gapLs := 2
  gapBk := 1
  burstBk := 2
  gapAct := 1
  blankAct := 2
  useSerr := true
  eofWhiteTail := true
  grayTop := true
  fbw := 8

/-- The variant of 95_test_vectors.md section 3.3, second table. -/
def vProfile : Profile :=
  { tProfile with total := 5, vtmlen := 3, vtm := [0x43#8, 0x20#8, 0x66#8],
                  useSerr := false, eofWhiteTail := false, grayTop := false }

/-- TCFG; both standards have the same profile. -/
def cfgOf (p : Profile) : Cfg := { Cfg.default with ntsc := p, pal := p }

def tFb : List Host.Cell :=
  [(0, 0x10#8), (1, 0x32#8), (2, 0x54#8), (3, 0x76#8), (4, 0x98#8), (5, 0xBA#8), (6, 0xDC#8), (7, 0xFE#8)]

def tTx : List (List Sample) := [List.replicate 16 0xFFFFFF00#32, List.replicate 16 0xFFFFFF10#32]

/-- The session `INIT(NTSC)` leaves with the framebuffer of section 2.2. -/
def tSession : Session where
  std := .ntsc
  sln := 0#16
  frame := 0#32
  pixline := 0#16
  cur := 0
  wsel := 1#1
  buf := 0
  wp := 0
  txi := 0
  fb := tFb
  tx := tTx

/-- A `READY` state of TCFG with this session, these pending events and this schedule. -/
def ready (r : Session) (pend : List Nat := []) (agenda : List Turn := []) (p : Profile := tProfile) : State :=
  { State.reset with cfg := cfgOf p, session := some r, irqEn := true, pend := pend, agenda := agenda }

/-- `UNINIT` with configuration TCFG. -/
def idle (p : Profile := tProfile) : State := { State.reset with cfg := cfgOf p }

/-! ### Views of an outcome -/

def after : Result → Option Session
  | .next s => s.session
  | _ => none

/-- The first buffer, as numbers. -/
def tx0 (o : Result) : Option (List Nat) := (after o).bind fun r => r.tx.head?.map (·.map BitVec.toNat)

/-- The framebuffer bytes, as numbers. -/
def fbBytes (o : Result) : Option (List Nat) := (after o).map fun r => r.fb.map fun cell => cell.2.toNat

def replied : Result → List Reply
  | .next s => s.replies
  | _ => []

/-- The next state, if there is one. -/
def nextState : Result → Option State
  | .next s => some s
  | _ => none

/-- The refusal, if there is one. -/
def refusal : Result → Option Refusal
  | .refused q => some q
  | _ => none

def completes : Result → Bool
  | .next _ => true
  | _ => false

theorem next_of_completes {o : Result} (h : completes o = true) : ∃ s, o = .next s := by
  cases o with
  | next s => exact ⟨s, rfl⟩
  | fault f => cases h
  | refused q => cases h

/-! ### Decoding: one word for every constructor, from the tables of R62, R63 and R64 -/

theorem test_decode_ss : decode (.line 0b0000#4) = .ok .ss := by decide
theorem test_decode_ls : decode (.line 0b0001#4) = .ok .ls := by decide
theorem test_decode_bk : decode (.line 0b0010#4) = .ok .bk := by decide
theorem test_decode_s2l : decode (.line 0b0011#4) = .ok .s2l := by decide
theorem test_decode_l2s : decode (.line 0b0100#4) = .ok .l2s := by decide
theorem test_decode_act : decode (.line 0b0101#4) = .ok .act := by decide
theorem test_decode_eof : decode (.line 0b0110#4) = .ok .eof := by decide
theorem test_decode_init : decode (.command { bareCommand 0b0000#4 with std := 1#1, allocOk := 1#1 }) =
    .ok (.init .pal true) := by decide
theorem test_decode_deinit : decode (.command (bareCommand 0b0001#4)) = .ok .deinit := by decide
theorem test_decode_start : decode (.command (bareCommand 0b0010#4)) = .ok .start := by decide
theorem test_decode_stop : decode (.command (bareCommand 0b0011#4)) = .ok .stop := by decide
theorem test_decode_tack :
    decode (.command { bareCommand 0b0100#4 with x := 0xFFFF#16, y := 2#16, col := 0x63#8 }) =
    .ok (.tack 0xFFFF#16 2#16 0x63#8) := by decide
theorem test_decode_getFrame : decode (.command (bareCommand 0b0101#4)) = .ok .getFrame := by decide
theorem test_decode_getWidth : decode (.command (bareCommand 0b0110#4)) = .ok .getWidth := by decide
theorem test_decode_getHeight : decode (.command (bareCommand 0b0111#4)) = .ok .getHeight := by decide
theorem test_decode_getBack : decode (.command (bareCommand 0b1000#4)) = .ok .getBack := by decide
theorem test_decode_pixsd : decode (.pixel 1#16 0#16 0b00001011#8) = .ok (.pixsd 1#16 0#16 0b1011#4) := by decide
theorem test_decode_pixdd0 : decode (.pixel 5#16 1#16 0b00010000#8) = .ok (.pixdd0 5#16 1#16) := by decide
theorem test_decode_pixdd1 : decode (.pixel 7#16 0#16 0b00010001#8) = .ok (.pixdd1 7#16 0#16) := by decide
theorem test_decode_reserved : decode (.line 0b1111#4) = .error (.reservedLine 15#4) ∧
    decode (.command (bareCommand 0b1100#4)) = .error (.reservedCommand 12#4) ∧
    decode (.pixel 0#16 0#16 99#8) = .error (.invalidColour 99#8) := by decide
/-- R60: the formats overlap, so a table word goes to the first of `LT`, `HC`, `PX` that takes it (log 15). -/
theorem test_decodeTableWord : decodeTableWord 8 6 = some .eof ∧ decodeTableWord 8 8 = some .getBack ∧
    decodeTableWord 8 11 = some (.pixsd 0#16 0#16 11#4) ∧ decodeTableWord 8 17 = some (.pixdd1 0#16 0#16) ∧
    decodeTableWord 8 18 = none ∧ decodeTableWord 4 17 = none := by decide

/-! ### Well-formedness: an ill-formed term for each check -/

theorem test_programWellFormed : programWellFormed [.ss, .eof] = true ∧ programWellFormed [.ss, .start] = false := by
  decide
theorem test_commandWellFormed : Command.wellFormed (bareCommand 8#4) = true ∧
    Command.wellFormed (bareCommand 9#4) = false := by decide
theorem test_colourWellFormed : colourWellFormed 17#8 = true ∧ colourWellFormed 18#8 = false := by decide
theorem test_itemWellFormed : Item.wellFormedFor (.line 0#4) .deinit = false ∧
    Item.wellFormedFor (.command (bareCommand 5#4)) .act = false ∧
    Item.wellFormedFor (.pixel 0#16 0#16 16#8) .ss = false := by decide
theorem test_tcfg_wellFormed : (cfgOf tProfile).violation .ntsc = none ∧ (cfgOf vProfile).violation .ntsc = none := by
  decide
theorem test_w1 : (cfgOf { tProfile with fbw := 12 }).violation .ntsc = some .w1 := by decide
theorem test_w2 : ({ cfgOf tProfile with n := 1 } : Cfg).violation .ntsc = some .w2 := by decide
theorem test_w3 : (cfgOf { tProfile with l := 11 }).violation .ntsc = some .w3 := by decide
/-- P4 (a) of section 4. -/
theorem test_w4 : (cfgOf { tProfile with total := 3, vtmlen := 2, vtm := [0x70#8, 0x66#8] }).violation .ntsc =
    some .w4 := by decide
theorem test_w5 : (cfgOf { tProfile with total := 8, vtmlen := 4, vtm := [0x20#8, 0x55#8, 0x12#8, 0x43#8] }).violation
    .ntsc = some .w5 := by decide
/-- P4 (b) of section 4: `SS, ACT, ACT, ACT, EOF` with `FBH = 2`. -/
theorem test_w6 : (cfgOf { tProfile with total := 5, vtmlen := 3, vtm := [0x50#8, 0x55#8, 0x66#8] }).violation .ntsc =
    some .w6 := by decide
theorem test_w7 : ({ cfgOf tProfile with lvGray := 16 } : Cfg).violation .ntsc = some .w7 := by decide

/-! ### Reset -/

theorem test_reset_memory : Memory.wf State.reset.fb = true := by decide

/-- The framebuffer every `INIT` starts with is in the canonical form too. -/
theorem test_drawFb_wf (k size : Nat) : Memory.wf (drawFb k size) = true :=
  memory_wf_of_range _ size (drawFb_addresses k size)

/-! ### LOOKUP with the default tables (section 3.1) -/

theorem test_lookup_ntsc : slotCode ntscProfile.vtm 265 = some 3#4 ∧ slotCode ntscProfile.vtm 524 = some 6#4 := by
  decide +kernel
theorem test_lookup_pal : slotCode palProfile.vtm 2 = some 4#4 ∧ slotCode palProfile.vtm 297 = some 5#4 := by
  decide +kernel

/-! ### Line instructions (section 3.3) -/

theorem test_ss : tx0 (exec .ss (ready { tSession with pixline := 2#16 })) =
      some [0x0C, 0x1C, 0x20, 0x30, 0x40, 0x00, 0x10, 0x2C, 0x3C, 0x40, 0x00, 0x10, 0x20, 0x30, 0x40, 0x00] ∧
    (after (exec .ss (ready { tSession with pixline := 2#16 }))).map (fun r => (r.pixline.toNat, r.cur)) = some (0, 1) := by
  decide
theorem test_ls : tx0 (exec .ls (ready tSession)) =
      some [0x0C, 0x1C, 0x2C, 0x3C, 0x4C, 0x00, 0x10, 0x2C, 0x3C, 0x4C, 0x0C, 0x1C, 0x20, 0x30, 0x40, 0x00] := by
  decide
theorem test_bk_gray : tx0 (exec .bk (ready { tSession with cur := 1 })) =
      some [0x1C, 0x2C, 0x3C, 0x40, 0x0D, 0x1D, 0x27, 0x37, 0x47, 0x07, 0x17, 0x27, 0x37, 0x47, 0x07, 0x17] := by
  decide
theorem test_bk_black : tx0 (exec .bk (ready { tSession with cur := 4, pixline := 2#16 })) =
      some [0x4C, 0x0C, 0x1C, 0x20, 0x3D, 0x4D, 0x00, 0x10, 0x20, 0x30, 0x40, 0x00, 0x10, 0x20, 0x30, 0x40] := by
  decide
theorem test_s2l : tx0 (exec .s2l (ready { tSession with cur := 1 })) =
      some [0x1C, 0x2C, 0x30, 0x40, 0x00, 0x10, 0x20, 0x3C, 0x4C, 0x0C, 0x1C, 0x20, 0x30, 0x40, 0x00, 0x10] := by
  decide
theorem test_s2l_no_serration : tx0 (exec .s2l (ready tSession [] [] vProfile)) =
      some [0x0C, 0x1C, 0x20, 0x30, 0x40, 0x00, 0x10, 0x2C, 0x3C, 0x4C, 0x0C, 0x1C, 0x20, 0x30, 0x40, 0x00] := by
  decide
theorem test_l2s : tx0 (exec .l2s (ready { tSession with cur := 2 })) =
      some [0x2C, 0x3C, 0x4C, 0x0C, 0x10, 0x20, 0x30, 0x4C, 0x0C, 0x10, 0x20, 0x30, 0x40, 0x00, 0x10, 0x20] := by
  decide
theorem test_l2s_no_serration : tx0 (exec .l2s (ready { tSession with cur := 1 } [] [] vProfile)) =
      some [0x1C, 0x2C, 0x3C, 0x4C, 0x0C, 0x10, 0x20, 0x3C, 0x4C, 0x00, 0x10, 0x20, 0x30, 0x40, 0x00, 0x10] := by
  decide
theorem test_act : tx0 (exec .act (ready { tSession with cur := 3, pixline := 1#16 })) =
      some [0x3C, 0x4C, 0x0C, 0x10, 0x2D, 0x3D, 0x40, 0x00, 0x14, 0x25, 0x36, 0x47, 0x00, 0x10, 0x20, 0x30] := by
  decide
/-- Program P1, feeder step 11: row 0 of half 1. -/
theorem test_act_second_half : tx0 (exec .act (ready { tSession with cur := 1, frame := 1#32 })) =
      some [0x1C, 0x2C, 0x3C, 0x40, 0x0D, 0x1D, 0x20, 0x30, 0x48, 0x09, 0x1A, 0x2B, 0x30, 0x40, 0x00, 0x10] := by
  decide
theorem test_eof : tx0 (exec .eof (ready { tSession with cur := 3 })) =
      some [0x3C, 0x4C, 0x00, 0x10, 0x20, 0x30, 0x40, 0x0C, 0x1C, 0x2F, 0x3F, 0x4F, 0x0F, 0x1F, 0x2F, 0x3F] := by
  decide
theorem test_eof_counters :
    (after (exec .eof (ready { tSession with frame := 0xFFFFFFFF#32 }))).map (fun r => (r.sln.toInt, r.frame.toNat)) =
      some (-1, 0) := by decide

/-! ### TACK and the pixel writers (section 3.5, rows 1 to 4, 13 and 14) -/

theorem test_tack_odd : fbBytes (exec (.tack 1#16 0#16 3#8) (ready tSession)) =
    some [0x10, 0x32, 0x54, 0x76, 0x38, 0xBA, 0xDC, 0xFE] := by decide
theorem test_tack_outside : nextState (exec (.tack 4#16 0#16 5#8) (ready tSession)) = some (ready tSession) ∧
    nextState (exec (.tack 0xFFFF#16 0#16 1#8) (ready tSession)) = some (ready tSession) := by decide
theorem test_pixsd_even : fbBytes (exec (.pixsd 0#16 1#16 0#4) (ready tSession)) =
    some [0x10, 0x32, 0x54, 0x76, 0x98, 0xBA, 0xD0, 0xFE] := by decide
theorem test_pixdd0 : fbBytes (exec (.pixdd0 5#16 1#16) (ready tSession)) =
    some [0x10, 0x32, 0x54, 0x76, 0x98, 0xBA, 0xDC, 0xFA] := by decide
theorem test_pixdd1 : fbBytes (exec (.pixdd1 7#16 0#16) (ready tSession)) =
    some [0x10, 0x32, 0x54, 0x76, 0x98, 0xFA, 0xDC, 0xFE] := by decide

/-! ### Host commands (section 3.6) -/

theorem test_init_fails : nextState (exec (.init .ntsc false) idle) = some (idle.reply (.status 1#1)) := by decide
/-- Row 3 of section 3.6; the stores are free, so they are not looked at. -/
theorem test_init : (after (exec (.init .ntsc true) idle)).map (fun r => (r.sln.toNat, r.frame.toNat, r.cur, r.wsel)) =
      some (0, 0, 0, 1#1) ∧
    (nextState (exec (.init .ntsc true) idle)).map (fun s => (s.irqEn, s.bcast, s.replies)) =
      some (true, false, [.status 0#1]) := by decide
theorem test_init_twice : refusal (exec (.init .pal true) (ready tSession)) = some .wrongState := by decide
/-- The last row of section 3.6, with R190 for `OUT`; R171 for a fault, which only the next `INIT` clears. -/
theorem test_deinit :
    nextState (exec .deinit { ready tSession [0] with bcast := true, out := [5#32], fault := some (.rowOutOfRange 2#16) }) =
      some { idle with ended := [[5#32]], fault := some (.rowOutOfRange 2#16) } := by decide
theorem test_start_stop : nextState (exec .start (ready tSession)) = some { ready tSession with bcast := true } ∧
    nextState (exec .stop { ready tSession with bcast := true }) = some (ready tSession) := by decide
theorem test_getFrame : replied (exec .getFrame (ready { tSession with frame := 7#32 })) = [.value 7#32] := by decide
theorem test_getWidth_getHeight :
    replied (exec .getWidth (ready tSession [] [] { tProfile with fbw := 232, fbh := 264 })) = [.value 232#32] ∧
    replied (exec .getHeight (ready tSession [] [] { tProfile with fbw := 232, fbh := 264 })) = [.value 264#32] := by
  decide
theorem test_getBack : replied (exec .getBack (ready { tSession with frame := 7#32 })) = [.value 0#32] ∧
    (after (exec .getBack (ready { tSession with frame := 7#32 }))).map (·.wsel) = some 0#1 := by decide
theorem test_getBack_wrap : replied (exec .getBack (ready { tSession with frame := 0xFFFFFFFF#32 })) = [.value 0#32] := by
  decide

/-! ### DMA and feeder steps (section 3.7, section 3.1 "Reserved", section 4 P4) -/

/-- The third DMA step of `DMA, DMA, DMA`: buffer 0 is still pending, so the deadline is missed. -/
theorem test_glitch : nextState (step (ready tSession [0, 1] [.dma])) = some
    { ready { tSession with txi := 1 } [0, 1, 0] with
      glitch := true, out := List.replicate 16 0xFFFFFF00#32 } := by decide
/-- The feeder step leaves `SLN` 1 and the event serviced. -/
theorem test_feeder : (after (step (ready { tSession with txi := 1 } [0] [.feeder]))).map
    (fun r => (r.sln.toNat, r.wp, r.cur)) = some (1, 16, 1) := by decide
theorem test_illegalLineType :
    nextState (step (ready { tSession with sln := 1#16, cur := 1 } [1] [.feeder]
      { tProfile with total := 3, vtm := [0x70#8, 0x66#8] })) = some
    { ready { tSession with sln := 1#16, cur := 1 } [1] [] { tProfile with total := 3, vtm := [0x70#8, 0x66#8] } with
      fault := some (.illegalLineType 1#16 7#4) } := by decide
theorem test_rowOutOfRange : nextState (exec .act (ready { tSession with pixline := 2#16 })) = some
    { ready { tSession with pixline := 2#16 } with fault := some (.rowOutOfRange 2#16) } := by decide
theorem test_unknownCommand : refusal (step (ready tSession [] [.host (bareCommand 12#4)])) =
    some (.unknownCommand 12#4) := by decide

/-! ### Witnesses: the hypotheses of each statement are met

`ready` is a state after `INIT`; `eofSession` is the session before the last line of a frame. -/

def eofSession : Session := { tSession with sln := 8#16, pixline := 2#16, txi := 1 }

theorem stores_ready : tSession.Stores (cfgOf tProfile) :=
  ⟨by decide, by decide, by decide, by decide, by decide, by decide⟩

theorem stores_eof : eofSession.Stores (cfgOf tProfile) :=
  ⟨by decide, by decide, by decide, by decide, by decide, by decide⟩

theorem placed_ready : tSession.Placed (cfgOf tProfile) :=
  ⟨by decide, by decide, fun _ h => (by cases h), by decide⟩

theorem placed_eof : eofSession.Placed (cfgOf tProfile) :=
  ⟨by decide, by decide,
    fun _ h => (show eofSession.pixline.toNat = 2 from rfl).trans (Option.some.inj ((by decide : _ = some 2).symm.trans h)),
    by decide⟩

/-- A good session makes a good state. -/
theorem inv_of (r : Session) (pend : List Nat) (agenda : List Turn) (hs : r.Stores (cfgOf tProfile))
    (hp : r.Placed (cfgOf tProfile)) (hb : ∀ b ∈ pend, b < 2) : (ready r pend agenda).Inv where
  ntscTotal := show tProfile.total ≤ 32767 by decide
  palTotal := show tProfile.total ≤ 32767 by decide
  noFault := rfl
  uninit := fun h => by cases h
  ready := fun r' h => by
    obtain rfl : r = r' := Option.some.inj h
    exact ⟨rfl, hs, hp, hb⟩

theorem inv_reset : State.reset.Inv where
  ntscTotal := by decide
  palTotal := by decide
  noFault := rfl
  uninit := fun _ => ⟨rfl, rfl, rfl, rfl⟩
  ready := fun _ h => by cases h

theorem inv_start (agenda : List Turn) : (ready tSession [] agenda).Inv :=
  inv_of _ _ _ stores_ready placed_ready (by decide)

/-- Before the last line of a frame, with the event of buffer 0 pending. -/
theorem inv_eof (agenda : List Turn) : (ready eofSession [0] agenda).Inv :=
  inv_of _ _ _ stores_eof placed_eof (by decide)

theorem refilling_of (r : Session) (hs : r.Stores (cfgOf tProfile)) (hb : r.buf < 2) (hw : r.wp = 0) :
    (ready r).Refilling r := ⟨rfl, hs, hb, hw⟩

theorem witness_PowerOnIsUninit : State.reset.Inv ∧ State.reset.session = none ∧
    decodeCommand (bareCommand 1#4) = some .deinit ∧ ∀ std ok, Instr.deinit ≠ .init std ok :=
  ⟨inv_reset, rfl, by decide, fun _ _ h => by cases h⟩

theorem witness_CommandsInTheWrongState : (ready tSession).session = some tSession ∧ State.reset.session = none :=
  ⟨rfl, rfl⟩

theorem witness_PixelWritersNeedAReadyBlock : State.reset.session = none := rfl

theorem witness_StepRunsTheScheduledTurn :
    (ready tSession [] [.dma]).agenda = .dma :: [] ∧ (ready tSession [] [.feeder]).agenda = .feeder :: [] ∧
    (ready tSession [] [.host (bareCommand 8#4)]).agenda = .host (bareCommand 8#4) :: [] ∧
    decodeCommand (bareCommand 8#4) = some .getBack := by decide

theorem witness_ReservedCommandsAreRefused :
    (ready tSession [] [.host (bareCommand 9#4)]).agenda = .host (bareCommand 9#4) :: [] ∧
    9 ≤ (bareCommand 9#4).cmd.toNat ∧ 9 ≤ (bareCommand 15#4).cmd.toNat := by decide

theorem witness_StepRunsTheFetchedLine :
    let s := ready tSession [0] [.feeder]
    s.agenda = .feeder :: [] ∧ s.irqEn = true ∧ s.fault = none ∧ s.pend = 0 :: [] ∧ s.session = some tSession ∧
    tSession.lookup s.cfg = some 0#4 ∧ decodeLine 0#4 = some .ss := by decide

/-- The second clause: the line is full and no fault is raised. -/
theorem witness_StepRunsTheFetchedLine_next :
    ((nextState (exec .ss { ready tSession [0] [] with session := some { tSession with buf := 0, wp := 0 } })).map
      fun t => (t.fault, t.session.map (·.wp))) = some (none, some tProfile.l) := by decide

theorem witness_DisabledFeederTurnsPass :
    (idle.irqEn = false ∧ (ready tSession [] [.feeder]).pend = [] ∧ (ready tSession [] [.feeder]).agenda = .feeder :: []) ∧
    { ready tSession [0] with fault := some (.rowOutOfRange 2#16) }.fault ≠ none := by decide

theorem witness_DisabledDmaTurnsPass : idle.session = none ∧
    { idle with agenda := [.dma] }.agenda = .dma :: [] ∧ idle.agenda = [] ∧ idle.feederEnabled = false := by decide

theorem witness_FreeScheduleMovesAnAgent : (ready tSession).agenda = [] ∧ (ready tSession).feederEnabled = false ∧
    (ready tSession [0]).agenda = [] ∧ (ready tSession [0]).feederEnabled = true := by decide

theorem witness_DmaStepTransmitsOneBuffer :
    (ready tSession).session = some tSession ∧ tSession.Stores (ready tSession).cfg := ⟨rfl, stores_ready⟩

theorem witness_InitResetsTheBlock : (ready tSession).session = some tSession ∧
    ((idle { tProfile with fbw := 12 }).session = none ∧ (idle { tProfile with fbw := 12 }).cfg.violation .pal ≠ none) ∧
    idle.session = none ∧ idle.cfg.violation .ntsc = none ∧ idle.cfg.violation .pal = none := by decide

theorem inv_idle : idle.Inv where
  ntscTotal := show tProfile.total ≤ 32767 by decide
  palTotal := show tProfile.total ≤ 32767 by decide
  noFault := rfl
  uninit := fun _ => ⟨rfl, rfl, rfl, rfl⟩
  ready := fun _ h => by cases h

theorem witness_FailedAllocationLeavesTheBlockUninitialised :
    idle.Inv ∧ idle.session = none ∧ idle.cfg.violation .ntsc = none := ⟨inv_idle, rfl, by decide⟩

theorem witness_IllFormedConfigurationsAreRefused : (idle { tProfile with fbw := 12 }).session = none ∧
    (idle { tProfile with fbw := 12 }).cfg.violation .pal = some .w1 := by decide

theorem witness_DeinitEndsTheSession : (ready tSession).session = some tSession := rfl

theorem witness_StartArmsTheNotification : (ready tSession).session = some tSession ∧ State.reset.session = none ∧
    completes (exec .start (ready tSession)) = true := by decide

theorem witness_StopDisarmsTheNotification : (ready tSession).session = some tSession ∧ State.reset.session = none ∧
    completes (exec .stop (ready tSession)) = true := by decide

/-- Sizes that 32 bits hold, the largest of them included. -/
theorem witness_QueriesAnswerAndWriteNothing : (ready tSession).session = some tSession ∧
    ((ready tSession).cfg.profile tSession.std).fbw < 2 ^ 32 ∧ ((ready tSession).cfg.profile tSession.std).fbh < 2 ^ 32 ∧
    ((cfgOf { tProfile with fbw := 2 ^ 32 - 8, fbh := 2 ^ 32 - 1 }).profile .ntsc).fbw < 2 ^ 32 ∧
    ((cfgOf { tProfile with fbw := 2 ^ 32 - 8, fbh := 2 ^ 32 - 1 }).profile .ntsc).fbh < 2 ^ 32 :=
  ⟨rfl, by decide, by decide, by decide, by decide⟩

theorem witness_GetBackLatchesTheBackHalf :
    (ready { tSession with frame := 0xFFFFFFFF#32 }).session = some { tSession with frame := 0xFFFFFFFF#32 } := rfl

/-- The first and the last place of a line. -/
theorem witness_EmitAppendsOneSample :
    (tSession.cur < (cfgOf tProfile).ring ∧ tSession.wp < ((cfgOf tProfile).profile tSession.std).l ∧
      tSession.buf < (cfgOf tProfile).n) ∧
    { tSession with wp := 15 }.wp < ((cfgOf tProfile).profile tSession.std).l := by decide

/-- A whole line, and an empty `FILL` at its end. -/
theorem witness_FillCopiesTheRing : tSession.Stores (cfgOf tProfile) ∧ tSession.buf < (cfgOf tProfile).n ∧
    tSession.wp + 16 ≤ ((cfgOf tProfile).profile tSession.std).l ∧ 16 + 0 ≤ ((cfgOf tProfile).profile tSession.std).l :=
  ⟨stores_ready, by decide, by decide, by decide⟩

/-- The first slot and the last one, and an odd one. -/
theorem witness_LookupReadsTheNibble :
    (0 ≤ (0#16).toInt ∧ (8#16).toInt < (tProfile.total : Int)) ∧
    (tProfile.vtm[0]? = some 0x20#8 ∧ (0#16).toNat = 2 * 0) ∧ (tProfile.vtm[4]? = some 0x66#8 ∧ (8#16).toNat = 2 * 4) ∧
    (tProfile.vtm[3]? = some 0x43#8 ∧ (7#16).toNat = 2 * 3 + 1) := by decide

theorem witness_ReservedCodesRaiseAFault :
    let s := ready { tSession with sln := 1#16 } [1] [.feeder] { tProfile with vtm := [0x70#8, 0x66#8] }
    s.agenda = .feeder :: [] ∧ s.irqEn = true ∧ s.fault = none ∧ s.pend = 1 :: [] ∧
    { tSession with sln := 1#16 }.lookup s.cfg = some 7#4 := by decide

theorem witness_RowOutOfRangeRaisesAFault :
    let r := { tSession with sln := 2#16, pixline := 2#16 }
    let s := ready r [0] [.feeder]
    s.agenda = .feeder :: [] ∧ s.irqEn = true ∧ s.fault = none ∧ s.pend = 0 :: [] ∧ s.session = some r ∧
    r.lookup s.cfg = some 5#4 ∧ (s.cfg.profile r.std).fbh ≤ r.pixline.toNat := by decide

theorem witness_FaultStopsOnlyTheFeeder :
    let s := { ready tSession [0] [.dma] with fault := some (.rowOutOfRange 2#16) }
    s.fault = some (.rowOutOfRange 2#16) ∧ completes (step s) = true ∧ s.session = some tSession ∧
    tSession.tx[tSession.txi]? = some (List.replicate 16 0xFFFFFF00#32) ∧
    Instr.isCommand .start = true ∧ completes (exec .start { s with fault := none }) = true := by decide

/-- A feeder step that raises each of the two reasons. -/
theorem witness_FaultStopsOnlyTheFeeder_raises :
    let s := ready { tSession with sln := 1#16 } [1] [] { tProfile with vtm := [0x70#8, 0x66#8] }
    let t := ready { tSession with sln := 2#16, pixline := 2#16 } [0]
    s.fault = none ∧ (nextState s.feederStep).map (·.fault) = some (some (.illegalLineType 1#16 7#4)) ∧
    t.fault = none ∧ (nextState t.feederStep).map (·.fault) = some (some (.rowOutOfRange 2#16)) := by decide

/-- The one step that clears a fault: an `INIT` after `DEINIT`. -/
theorem witness_FaultStopsOnlyTheFeeder_init :
    let c := { bareCommand 0#4 with allocOk := 1#1 }
    let s := { idle with fault := some (.rowOutOfRange 2#16), agenda := [.host c] }
    s.agenda = .host c :: [] ∧ decodeCommand c = some (.init .ntsc true) ∧ s.session = none ∧
    (nextState (step s)).map (·.fault) = some none := by decide

theorem witness_SyncLinesFillTheBuffer : (ready tSession).Refilling tSession :=
  refilling_of _ stores_ready (by decide) rfl

/-- Gray: `PIXLINE` is 0; black: `PIXLINE` is 2. -/
theorem witness_BlackLineIsGrayOnlyAtTheTop :
    ((ready tSession).Refilling tSession ∧ tProfile.grayTop = true ∧ tSession.pixline = 0#16) ∧
    (ready eofSession).Refilling eofSession ∧ eofSession.pixline ≠ 0#16 :=
  ⟨⟨refilling_of _ stores_ready (by decide) rfl, rfl, rfl⟩, refilling_of _ stores_eof (by decide) rfl, by decide⟩

theorem witness_EofClosesTheFrame : (ready eofSession).Refilling eofSession :=
  refilling_of _ stores_eof (by decide) rfl

theorem witness_ActiveLineShowsTheRow : (ready tSession).Refilling tSession ∧
    tSession.pixline.toNat < ((cfgOf tProfile).profile tSession.std).fbh :=
  ⟨refilling_of _ stores_ready (by decide) rfl, by decide⟩

/-- The back half of framebuffer `tFb` with one byte changed. -/
theorem witness_ActiveLineIgnoresTheBackHalf :
    (ready tSession).Refilling tSession ∧
    Session.Stores (cfgOf tProfile) { tSession with fb := Memory.put tFb 5 0x00#8 } ∧
    tSession.pixline.toNat < ((cfgOf tProfile).profile tSession.std).fbh ∧
    ∀ a, inHalf ((cfgOf tProfile).profile tSession.std) (frontHalf tSession.frame).toNat a →
      Memory.read (Memory.put tFb 5 0x00#8) a = Memory.read tFb a := by
  refine ⟨refilling_of _ stores_ready (by decide) rfl,
    ⟨by decide, by decide, by decide, by decide, by decide, by decide⟩, by decide, fun a h => ?_⟩
  have h4 : a < 4 := h.2
  exact memory_read_put_other tFb 5 a 0x00#8 (by omega)

/-- The corners of the picture in each density. -/
theorem witness_PixelWritersEditOneByte :
    (ready tSession).session = some tSession ∧ tSession.Stores (cfgOf tProfile) ∧
    inRange tProfile tProfile.fbw2 0#16 0#16 = true ∧ inRange tProfile tProfile.fbw2 3#16 1#16 = true ∧
    inRange tProfile tProfile.fbw 7#16 1#16 = true :=
  ⟨rfl, stores_ready, by decide, by decide, by decide⟩

/-- The colours at both sides of `DD_BASE` and of `MAXCOL`, the last pixel in each density and the place beyond it. -/
theorem witness_TackRunsTheSelectedWriter :
    State.reset.session = none ∧ (ready tSession).session = some tSession ∧ tSession.Stores (cfgOf tProfile) ∧
    (15#8).toNat ≤ (cfgOf tProfile).maxCol ∧ (15#8).toNat < (cfgOf tProfile).ddBase ∧
    (16#8).toNat ≤ (cfgOf tProfile).maxCol ∧ (cfgOf tProfile).ddBase ≤ (16#8).toNat ∧
    (16#8).toNat ≠ (cfgOf tProfile).ddWhite ∧ (17#8).toNat = (cfgOf tProfile).ddWhite ∧
    (cfgOf tProfile).maxCol < (18#8).toNat ∧
    ((3#16).toInt < (tProfile.fbw2 : Int) ∧ ¬ (4#16).toInt < (tProfile.fbw2 : Int)) ∧
    ((7#16).toInt < (tProfile.fbw : Int) ∧ ¬ (8#16).toInt < (tProfile.fbw : Int)) ∧
    (1#16).toInt < (tProfile.fbh : Int) ∧ ¬ (2#16).toInt < (tProfile.fbh : Int) :=
  ⟨rfl, rfl, stores_ready, by decide, by decide, by decide, by decide, by decide, by decide, by decide, by decide,
    by decide, by decide, by decide⟩

/-- Just outside on each side, in each density, and the first invalid colour. -/
theorem witness_OutOfRangeDrawingIsDiscarded :
    (ready tSession).session = some tSession ∧ (cfgOf tProfile).maxCol < (18#8).toNat ∧
    (15#8).toNat < (cfgOf tProfile).ddBase ∧ (cfgOf tProfile).ddBase ≤ (16#8).toNat ∧
    (0xFFFF#16).toInt < 0 ∧ (tProfile.fbw2 : Int) ≤ (4#16).toInt ∧ (tProfile.fbw : Int) ≤ (8#16).toInt ∧
    (tProfile.fbh : Int) ≤ (2#16).toInt := by decide

theorem witness_TackIsItsPixelDecoding :
    (cfgOf tProfile).ddBase = 16 ∧ (cfgOf tProfile).ddWhite = 17 ∧ (cfgOf tProfile).maxCol = 17 ∧
    decodePixel 1#16 0#16 15#8 = some (.pixsd 1#16 0#16 15#4) ∧ decodePixel 1#16 0#16 18#8 = none ∧
    (ready tSession).session = some tSession := by decide

theorem witness_SingleDensityWriteChangesOnePixel :
    (ready tSession).session = some tSession ∧ tSession.Stores (cfgOf tProfile) ∧
    (∃ t, exec (.pixsd 3#16 1#16 9#4) (ready tSession) = .next t) ∧
    inRange tProfile tProfile.fbw2 3#16 1#16 = true :=
  ⟨rfl, stores_ready, next_of_completes (by decide), by decide⟩

theorem witness_DrawingStaysInTheSelectedHalf :
    (ready tSession).session = some tSession ∧ tSession.Stores (cfgOf tProfile) ∧
    (∃ t, exec (.tack 7#16 1#16 17#8) (ready tSession) = .next t) ∧ 7 < tProfile.fbsize :=
  ⟨rfl, stores_ready, next_of_completes (by decide), by decide⟩

/-- A client that draws into the half being shown: `WSEL` 0 while `FRAME` is 0. -/
theorem witness_DrawnPixelComesOutOfTheLine :
    (ready { tSession with wsel := 0#1 }).Refilling { tSession with wsel := 0#1 } ∧ (9#8).toNat < 16 ∧
    (9#8).toNat ≤ (cfgOf tProfile).maxCol ∧ (9#8).toNat < (cfgOf tProfile).ddBase ∧
    inRange tProfile tProfile.fbw2 3#16 0#16 = true ∧ tSession.pixline.toNat = (0#16).toNat ∧
    0#1 = frontHalf tSession.frame :=
  ⟨refilling_of _ ⟨by decide, by decide, by decide, by decide, by decide, by decide⟩ (by decide) rfl,
    by decide, by decide, by decide, by decide, by decide, by decide⟩

/-- A command with an operand field it ignores. -/
theorem witness_DecodeAndEncodeAgree : decode (.command { bareCommand 2#4 with x := 5#16 }) = .ok .start ∧
    Item.canonical (.command { bareCommand 2#4 with x := 5#16 }) ≠ .command { bareCommand 2#4 with x := 5#16 } := by
  decide

/-- An odd and an even program. -/
theorem witness_AssembledProgramsAreFetchedBack :
    programWellFormed [.ss, .ls, .eof] = true ∧ ([.ss, .ls, .eof] : List Instr)[1]? = some .ls ∧
    ([.ss, .ls, .eof] : List Instr).length % 2 = 1 ∧ programWellFormed [.ss, .eof] = true := by decide

theorem witness_DefaultProfilesAreWellFormed :
    Cfg.default.ntsc = ntscProfile ∧ Cfg.default.pal = palProfile ∧ 2 ≤ Cfg.default.n ∧ Cfg.default.wt ≠ [] ∧
    Cfg.default.lvSync ≤ 15 ∧ Cfg.default.lvBlack ≤ 15 ∧ Cfg.default.lvGray ≤ 15 ∧ Cfg.default.lvWhite ≤ 15 ∧
    Cfg.default.lvBurst ≤ 15 ∧ Cfg.default.ddBit ≤ 1 :=
  ⟨rfl, rfl, by decide, List.cons_ne_nil _ _, by decide, by decide, by decide, by decide, by decide, by decide⟩

theorem witness_StepKeepsTheInvariant : (ready eofSession [0] [.feeder]).Inv ∧
    ∃ s', step (ready eofSession [0] [.feeder]) = .next s' :=
  ⟨inv_eof _, next_of_completes (by decide)⟩

/-- A good state whose next turn is refused. -/
theorem witness_GoodStatesNeverFault : (ready tSession [] [.host (bareCommand 12#4)]).Inv ∧
    refusal (step (ready tSession [] [.host (bareCommand 12#4)])) = some (.unknownCommand 12#4) :=
  ⟨inv_start _, by decide⟩

theorem ringOrder_eof (agenda : List Turn) : (ready eofSession [0] agenda).RingOrder := by
  show _ → _
  intro _
  refine ⟨show 1 ≤ 2 by decide, fun j h => ?_⟩
  obtain rfl : j = 0 := by
    have : j < 1 := h
    omega
  show 0 = (1 + 2 - 1 + 0) % 2
  decide

theorem witness_GlitchIsTheMissedDeadline : (ready eofSession [0] [.dma]).Inv ∧ (ready eofSession [0] [.dma]).RingOrder ∧
    (ready eofSession [0] [.dma]).agenda = .dma :: [] ∧ (ready eofSession [0] [.dma]).session = some eofSession ∧
    (ready eofSession [0] [.dma]).glitch = false ∧ ∃ s', step (ready eofSession [0] [.dma]) = .next s' :=
  ⟨inv_eof _, ringOrder_eof _, rfl, rfl, rfl, next_of_completes (by decide)⟩

theorem witness_AgentsCommuteBeforeTheDeadline : (ready eofSession [0]).Inv ∧ (ready eofSession [0]).RingOrder ∧
    (ready eofSession [0]).session = some eofSession ∧ (ready eofSession [0]).glitch = false ∧
    (ready eofSession [0]).pend ≠ [] ∧ (ready eofSession [0]).pend.length < (ready eofSession [0]).cfg.n :=
  ⟨inv_eof _, ringOrder_eof _, rfl, rfl, by decide, by decide⟩

/-- Slot 8 holds `EOF`; slot 0 holds `SS`. -/
theorem witness_FeederStepServicesOneEvent :
    ((ready eofSession [0] [.feeder]).Inv ∧ (ready eofSession [0] [.feeder]).agenda = .feeder :: [] ∧
      (ready eofSession [0] [.feeder]).session = some eofSession ∧ (ready eofSession [0] [.feeder]).pend ≠ [] ∧
      eofSession.lookup (cfgOf tProfile) = some 6#4) ∧
    (ready tSession [1] [.feeder]).Inv ∧ tSession.lookup (cfgOf tProfile) = some 0#4 :=
  ⟨⟨inv_eof _, rfl, rfl, by decide, by decide⟩, inv_of _ _ _ stores_ready placed_ready (by decide), by decide⟩

theorem runsEof : (ready eofSession [0] [.feeder]).RunsEof := ⟨ready eofSession [0] [], 0, rfl, rfl⟩

theorem witness_FrameAdvancesOnlyAtEof : (ready eofSession [0] [.feeder]).session = some eofSession ∧
    ((nextState (step (ready eofSession [0] [.feeder]))).bind (·.session)).isSome = true ∧
    (ready eofSession [0] [.feeder]).RunsEof := ⟨rfl, by decide, runsEof⟩

theorem witness_CountersMoveOnlyInTheFeeder : (ready eofSession [0] [.dma]).session = some eofSession ∧
    (ready eofSession [0] [.dma]).nextTurn = (.dma, ready eofSession [0] []) ∧ Turn.dma ≠ .feeder ∧
    ((nextState (step (ready eofSession [0] [.dma]))).bind (·.session)).isSome = true := by decide

/-- A `TACK` that changes a byte and a `GET_BACK` that changes `WSEL`. -/
theorem witness_OnlyTackWritesTheFramebuffer :
    let tack := Turn.host { bareCommand 4#4 with col := 1#8 }
    let getBack := Turn.host (bareCommand 8#4)
    (ready tSession [] [tack]).session = some tSession ∧
    ((nextState (step (ready tSession [] [tack]))).bind (·.session)).map (fun r => decide (r.fb = tSession.fb)) =
      some false ∧
    ((nextState (step (ready { tSession with frame := 1#32 } [] [getBack]))).bind (·.session)).map (·.wsel) =
      some 0#1 := by decide

theorem witness_FeederWritesOnlyItsBuffer : (ready eofSession [0] [.feeder]).session = some eofSession ∧
    ((nextState (step (ready eofSession [0] [.feeder]))).bind (·.session)).map
      (fun r => decide (r.tx[0]? = eofSession.tx[0]?)) = some false := by decide

/-- The ways there are: a host command that keeps `OUT`, an `INIT` and a `DEINIT` that empty it, a DMA turn that appends
a line. -/
theorem witness_OutputGrowsByWholeLines :
    (nextState (step { ready tSession [] [.host (bareCommand 2#4)] with out := [5#32] })).map (·.out) = some [5#32] ∧
    (nextState (step { idle with agenda := [.host { bareCommand 0#4 with allocOk := 1#1 }], out := [5#32] })).map
      (·.out) = some [] ∧
    (nextState (step { ready tSession [] [.host (bareCommand 1#4)] with out := [5#32] })).map
      (fun s => (s.out, s.ended)) = some ([], [[5#32]]) ∧
    (nextState (step { ready tSession [] [.dma] with out := [5#32] })).map (·.out) =
      some (5#32 :: List.replicate 16 0xFFFFFF00#32) := by decide

theorem witness_ConfigurationIsImmutable : completes (step (ready tSession [] [.dma])) = true := by decide

theorem punctual_eof (agenda : List Turn) : (ready eofSession [0] agenda).Punctual := fun r h => by
  obtain rfl : eofSession = r := Option.some.inj h
  decide

theorem witness_PunctualClientNeverTears :
    completes (exec (.init .ntsc true) idle) = true ∧ completes (exec .getBack (ready tSession)) = true ∧
    ((ready eofSession [0] [.dma]).Punctual ∧ completes (step (ready eofSession [0] [.dma])) = true ∧
      ¬ (ready eofSession [0] [.dma]).RunsEof) ∧
    (ready eofSession [0] [.host { bareCommand 4#4 with col := 1#8 }]).Inv ∧
    (ready eofSession [0] [.host { bareCommand 4#4 with col := 1#8 }]).Punctual ∧
    ((nextState (step (ready eofSession [0] [.host { bareCommand 4#4 with col := 1#8 }]))).bind (·.session)).isSome = true ∧
    inHalf tProfile (frontHalf eofSession.frame).toNat 0 := by
  refine ⟨by decide, by decide, ⟨punctual_eof _, by decide, ?_⟩, inv_eof _, punctual_eof _, by decide, by decide, by decide⟩
  rintro ⟨t, b, h, -⟩
  cases h

theorem witness_LateClientTears : (ready eofSession [0] [.feeder]).Inv ∧ (ready eofSession [0] [.feeder]).Punctual ∧
    (ready eofSession [0] [.feeder]).RunsEof ∧ (ready eofSession [0] [.feeder]).session = some eofSession ∧
    (∃ s', step (ready eofSession [0] [.feeder]) = .next s') ∧ (9#8).toNat ≤ (cfgOf tProfile).maxCol ∧
    (9#8).toNat < (cfgOf tProfile).ddBase ∧ inRange tProfile tProfile.fbw2 3#16 1#16 = true :=
  ⟨inv_eof _, punctual_eof _, runsEof, rfl, next_of_completes (by decide), by decide, by decide, by decide⟩

end Sys2Proof.Tests
end

section
namespace Sys2Proof.Machine

open Sys2Proof

/-! ### The configuration check of `INIT` (R6, R153, R172) -/

/-- A configuration breaks no condition exactly when each of W1 to W7 holds. -/
theorem violation_eq_none_iff (c : Cfg) (std : Std) :
    c.violation std = none ↔
      (c.profile std).w1 = true ∧ c.w2 (c.profile std) = true ∧ (c.profile std).w3 = true ∧
      (c.profile std).w4 = true ∧ (c.profile std).w5 = true ∧ (c.profile std).w6 = true ∧ c.w7 = true := by
  simp [Cfg.violation, Cfg.conditions, List.find?_eq_none]

/-- The condition reported is listed with the verdict `false`. -/
theorem violation_mem_conditions {c : Cfg} {std : Std} {w : WCond} (h : c.violation std = some w) :
    (w, false) ∈ c.conditions std := by
  obtain ⟨⟨w', verdict⟩, hfind, rfl⟩ := Option.map_eq_some_iff.mp h
  have hbroken : verdict = false := by simpa using List.find?_some hfind
  subst hbroken
  exact List.mem_of_find?_eq_some hfind

theorem execInit_of_violation {s : State} {std : Std} {w : WCond} (ok : Bool) (hs : s.session = none)
    (hv : s.cfg.violation std = some w) : execInit std ok s = .refused (.illFormedConfig w) := by
  simp [execInit, hs, hv]

/-- In `UNINIT` a well-formed configuration is not refused, whether or not the allocation succeeds. -/
theorem execInit_of_wellFormed {s : State} {std : Std} (ok : Bool) (hs : s.session = none)
    (hv : s.cfg.violation std = none) : ∃ t, execInit std ok s = .next t := by
  cases ok <;> simp [execInit, hs, hv]

theorem execInit_refused_illFormed_iff {s : State} {std : Std} {ok : Bool} {w : WCond} (hs : s.session = none) :
    execInit std ok s = .refused (.illFormedConfig w) ↔ s.cfg.violation std = some w := by
  refine ⟨fun h => ?_, execInit_of_violation ok hs⟩
  cases hv : s.cfg.violation std with
  | none =>
    obtain ⟨t, ht⟩ := execInit_of_wellFormed ok hs hv
    cases ht.symm.trans h
  | some w' =>
    cases (execInit_of_violation ok hs hv).symm.trans h
    rfl

/-- Settles O12: the refusal is the arm of `execInit` for a reported violation, and what is reported is the first listed
condition whose verdict is `false`. -/
theorem illFormedConfigurationsAreRefused : Obligations.IllFormedConfigurationsAreRefused := by
  intro s std ok hs
  exact ⟨fun _ => execInit_refused_illFormed_iff hs, violation_eq_none_iff s.cfg std,
    fun _ => violation_mem_conditions⟩

/-! ### Slots of a Vertical Timing Map -/

theorem slotCodes_append (xs ys : List Byte) : slotCodes (xs ++ ys) = slotCodes xs ++ slotCodes ys :=
  List.flatMap_append

/-- A byte with the same code in both nibbles, repeated: a run of that code. -/
theorem slotCodes_replicate {b : Byte} {code : Nibble} (hlow : lowNibble b = code) (hhigh : highNibble b = code)
    (n : Nat) : slotCodes (List.replicate n b) = List.replicate (2 * n) code := by
  induction n with
  | zero => rfl
  | succ n ih =>
    have hcons : slotCodes (b :: List.replicate n b) = code :: code :: slotCodes (List.replicate n b) := by
      simp [slotCodes, hlow, hhigh]
    rw [List.replicate_succ, hcons, ih]
    rfl

theorem slotCodes_replicate_bk (n : Nat) : slotCodes (List.replicate n 0x22#8) = List.replicate (2 * n) 2#4 :=
  slotCodes_replicate rfl rfl n

theorem slotCodes_replicate_act (n : Nat) : slotCodes (List.replicate n 0x55#8) = List.replicate (2 * n) 5#4 :=
  slotCodes_replicate rfl rfl n

theorem slotCodes_length (vtm : List Byte) : (slotCodes vtm).length = 2 * vtm.length := by
  simp [slotCodes, Nat.mul_comm]

/-! ### The walk behind W6 -/

theorem rowsFit_append (fbh : Nat) (rows : Option Nat) (xs ys : List Nibble) :
    rowsFit fbh rows (xs ++ ys) = (rowsFit fbh rows xs && rowsFit fbh (xs.foldl rowsAfter rows) ys) := by
  induction xs generalizing rows with
  | nil => rfl
  | cons x xs ih => simp [rowsFit, ih, Bool.and_assoc]

/-- Codes of lines that show no row: neither `ACT` (5) nor `EOF` (6) nor a reserved code (R62). -/
def Blanking (codes : List Nibble) : Prop := ∀ code ∈ codes, code.toNat < 5

theorem Blanking.of_cons {code : Nibble} {codes : List Nibble} (h : Blanking (code :: codes)) :
    code ≠ 5#4 ∧ Blanking codes := by
  obtain ⟨hcode, hcodes⟩ := List.forall_mem_cons.mp h
  refine ⟨?_, hcodes⟩
  rintro rfl
  exact absurd hcode (by decide)

theorem rowsFit_of_blanking {codes : List Nibble} (h : Blanking codes) (fbh : Nat) (rows : Option Nat) :
    rowsFit fbh rows codes = true := by
  induction codes generalizing rows with
  | nil => rfl
  | cons code codes ih =>
    obtain ⟨hact, hcodes⟩ := h.of_cons
    simp [rowsFit, hact, ih hcodes]

/-- Blanking lines count no row, and the count stands at 0 from their first `SS` on. -/
theorem rowsAfter_blanking_zero {codes : List Nibble} (h : Blanking codes) :
    codes.foldl rowsAfter (some 0) = some 0 := by
  induction codes with
  | nil => rfl
  | cons code codes ih =>
    obtain ⟨hact, hcodes⟩ := h.of_cons
    simp [rowsAfter, hact, ih hcodes]

theorem rowsAfter_blanking {codes : List Nibble} (h : Blanking codes) (hss : 0#4 ∈ codes) (rows : Option Nat) :
    codes.foldl rowsAfter rows = some 0 := by
  obtain ⟨before, after, rfl⟩ := List.append_of_mem hss
  have hafter : Blanking after := fun code hcode => h code (by simp [hcode])
  simpa [rowsAfter] using rowsAfter_blanking_zero hafter

theorem rowsAfter_replicate_act (k n : Nat) :
    (List.replicate n 5#4).foldl rowsAfter (some k) = some (k + n) := by
  induction n generalizing k with
  | zero => rfl
  | succ n ih =>
    calc (List.replicate (n + 1) 5#4).foldl rowsAfter (some k)
        = (List.replicate n 5#4).foldl rowsAfter (some (k + 1)) := rfl
      _ = some (k + 1 + n) := ih (k + 1)
      _ = some (k + (n + 1)) := by rw [Nat.add_assoc, Nat.add_comm 1]

theorem rowsFit_replicate_act {fbh k n : Nat} (h : k + n ≤ fbh) :
    rowsFit fbh (some k) (List.replicate n 5#4) = true := by
  induction n generalizing k with
  | zero => rfl
  | succ n ih =>
    have hrest : rowsFit fbh (some (k + 1)) (List.replicate n 5#4) = true := ih (by omega)
    have hk : k < fbh := by omega
    simp [List.replicate_succ, rowsFit, rowsAfter, hk, hrest]

/-- A field is blanking lines with an `SS` among them, then at most `FBH` rows; what stands after it is judged with
the count at those rows. -/
theorem rowsFit_field {fbh n : Nat} {blank : List Nibble} (hblank : Blanking blank) (hss : 0#4 ∈ blank) (hn : n ≤ fbh)
    (rows : Option Nat) (rest : List Nibble) :
    rowsFit fbh rows (blank ++ (List.replicate n 5#4 ++ rest)) = rowsFit fbh (some n) rest := by
  rw [rowsFit_append, rowsFit_append, rowsFit_of_blanking hblank, rowsAfter_blanking hblank hss,
    rowsFit_replicate_act (by omega), rowsAfter_replicate_act]
  simp

/-! ### Tables of two fields -/

/-- The slots before `EOF` of a frame of two fields with `n` rows each. -/
def twoFields (n : Nat) (top mid bottom : List Nibble) : List Nibble :=
  top ++ (List.replicate n 5#4 ++ (mid ++ (List.replicate n 5#4 ++ bottom)))

theorem twoFields_length (n : Nat) (top mid bottom : List Nibble) :
    (twoFields n top mid bottom).length = top.length + (n + (mid.length + (n + bottom.length))) := by
  simp only [twoFields, List.length_append, List.length_replicate]

/-- The table of a profile holds two fields of `FBH` rows each, the blanking lines around them, `EOF` and the padding
nibble: the layout of both default tables (R96, R97). -/
structure TwoFieldTable (p : Profile) (top mid bottom : List Nibble) : Prop where
  codes : slotCodes p.vtm = twoFields p.fbh top mid bottom ++ [6#4, 6#4]
  total : p.total = (twoFields p.fbh top mid bottom).length + 1
  vtmlen : p.vtmlen = (p.total + 1) / 2
  top_blanking : Blanking top
  mid_blanking : Blanking mid
  bottom_blanking : Blanking bottom
  top_ss : 0#4 ∈ top
  mid_ss : 0#4 ∈ mid

theorem twoFields_lt_eof {n : Nat} {top mid bottom : List Nibble} (htop : Blanking top) (hmid : Blanking mid)
    (hbottom : Blanking bottom) : ∀ code ∈ twoFields n top mid bottom, code.toNat < 6 := by
  have hact : ∀ code ∈ List.replicate n 5#4, code.toNat < 6 := fun code h => by
    rw [List.eq_of_mem_replicate h]; decide
  have hblank : ∀ {codes : List Nibble}, Blanking codes → ∀ code ∈ codes, code.toNat < 6 :=
    fun h code hcode => Nat.lt_succ_of_lt (h code hcode)
  simp only [twoFields, List.forall_mem_append]
  exact ⟨hblank htop, hact, hblank hmid, hact, hblank hbottom⟩

section
variable {p : Profile} {top mid bottom : List Nibble}

theorem TwoFieldTable.lt_eof (h : TwoFieldTable p top mid bottom) :
    ∀ code ∈ twoFields p.fbh top mid bottom, code.toNat < 6 :=
  twoFields_lt_eof h.top_blanking h.mid_blanking h.bottom_blanking

theorem TwoFieldTable.slots_eq (h : TwoFieldTable p top mid bottom) :
    p.slots = twoFields p.fbh top mid bottom ++ [6#4] := by
  simp [Profile.slots, h.codes, h.total, List.take_append]

theorem TwoFieldTable.w4 (h : TwoFieldTable p top mid bottom) : p.w4 = true := by
  have hbytes : p.vtm.length = p.vtmlen := by
    have hlen := slotCodes_length p.vtm
    have htotal := h.total
    rw [h.codes, List.length_append, List.length_cons, List.length_singleton] at hlen
    have := h.vtmlen
    omega
  have hcodes : ∀ code ∈ slotCodes p.vtm, code.toNat ≤ 6 := by
    rw [h.codes, List.forall_mem_append]
    exact ⟨fun code hcode => (h.lt_eof code hcode).le, by decide⟩
  simpa [Profile.w4, hbytes, ← h.vtmlen] using hcodes

theorem TwoFieldTable.w5 (h : TwoFieldTable p top mid bottom) : p.w5 = true := by
  have hearlier : ∀ code ∈ twoFields p.fbh top mid bottom, code ≠ 6#4 := by
    rintro code hcode rfl
    exact absurd (h.lt_eof _ hcode) (by decide)
  simpa [Profile.w5, h.slots_eq, h.total] using hearlier

theorem TwoFieldTable.w6 (h : TwoFieldTable p top mid bottom) : p.w6 = true := by
  have htail : rowsFit p.fbh (some p.fbh) (bottom ++ [6#4]) = true := by
    rw [rowsFit_append, rowsFit_of_blanking h.bottom_blanking]
    rfl
  have hfields : twoFields p.fbh top mid bottom ++ [6#4] =
      top ++ (List.replicate p.fbh 5#4 ++ (mid ++ (List.replicate p.fbh 5#4 ++ (bottom ++ [6#4])))) := by
    simp [twoFields]
  rw [Profile.w6, h.slots_eq, hfields, rowsFit_field h.top_blanking h.top_ss le_rfl,
    rowsFit_field h.mid_blanking h.mid_ss le_rfl, htail]

end

/-! ### The default profiles (R5, R96, R97) -/

/-- R96: the rows of a field begin and end inside a byte whose other nibble is a `BK`. The rows are made opaque before the
two lists are compared: only the slots around them need to be computed. -/
theorem ntscProfile_twoFieldTable : TwoFieldTable ntscProfile
    ([0#4, 0#4, 0#4, 1#4, 1#4, 1#4, 0#4, 0#4, 0#4] ++ List.replicate 22 2#4)
    (List.replicate 11 2#4 ++ [0#4, 0#4, 0#4, 3#4, 1#4, 1#4, 4#4, 0#4, 0#4, 0#4] ++ List.replicate 21 2#4)
    (List.replicate 11 2#4) where
  codes := by
    have hrows : List.replicate 220 5#4 = [5#4] ++ (List.replicate (2 * 109) 5#4 ++ [5#4]) := by
      rw [← List.replicate_succ', List.singleton_append, ← List.replicate_succ]
    change slotCodes ntscVtm = twoFields 220 _ _ _ ++ _
    simp only [ntscVtm, slotCodes_append, slotCodes_replicate_bk, slotCodes_replicate_act, twoFields, hrows,
      List.append_assoc]
    generalize List.replicate (2 * 109) 5#4 = rows
    rfl
  total := by rw [twoFields_length]; rfl
  vtmlen := rfl
  top_blanking := by unfold Blanking; decide
  mid_blanking := by unfold Blanking; decide
  bottom_blanking := by unfold Blanking; decide
  top_ss := by decide
  mid_ss := by decide

/-- R97: the rows of a field fill whole bytes. -/
theorem palProfile_twoFieldTable : TwoFieldTable palProfile
    ([1#4, 1#4, 4#4, 0#4, 0#4] ++ List.replicate 29 2#4)
    (List.replicate 12 2#4 ++ [0#4, 0#4, 3#4, 1#4, 1#4, 0#4, 0#4, 0#4] ++ List.replicate 28 2#4)
    (List.replicate 12 2#4 ++ [0#4, 0#4]) where
  codes := by
    change slotCodes palVtm = twoFields (2 * 132) _ _ _ ++ _
    simp only [palVtm, slotCodes_append, slotCodes_replicate_bk, slotCodes_replicate_act, twoFields,
      List.append_assoc]
    generalize List.replicate (2 * 132) 5#4 = rows
    rfl
  total := by rw [twoFields_length]; rfl
  vtmlen := rfl
  top_blanking := by unfold Blanking; decide
  mid_blanking := by unfold Blanking; decide
  bottom_blanking := by unfold Blanking; decide
  top_ss := by decide
  mid_ss := by decide

/-- Settles O41: W1 to W3 compare fixed sizes, W4 to W6 follow from the two-field layout of the tables, and the fields
R5 leaves OPEN enter W2 and W7 alone. -/
theorem defaultProfilesAreWellFormed : Obligations.DefaultProfilesAreWellFormed := by
  intro c hntsc hpal hn hwt hsync hblack hgray hwhite hburst hddBit
  have hring : 1 ≤ c.ring := List.length_pos_iff.mpr hwt
  have hw7 : c.w7 = true := by simp [Cfg.w7, *]
  have hw2 : ∀ p : Profile, 1 ≤ p.fbh → c.w2 p = true := fun p hp => by simp [Cfg.w2, *]
  simp only [violation_eq_none_iff, Cfg.profile, hntsc, hpal]
  exact ⟨⟨by decide, hw2 _ (by decide), by decide, ntscProfile_twoFieldTable.w4, ntscProfile_twoFieldTable.w5,
      ntscProfile_twoFieldTable.w6, hw7⟩,
    ⟨by decide, hw2 _ (by decide), by decide, palProfile_twoFieldTable.w4, palProfile_twoFieldTable.w5,
      palProfile_twoFieldTable.w6, hw7⟩⟩

end Sys2Proof.Machine
end

section
namespace Sys2Proof.Machine

open Sys2Proof

/-! ### The turn taken (R50) -/

section NextTurn
variable {s t : State} {turn : Turn}

/-- The turn is taken in a state that differs in the schedule only. -/
theorem nextTurn_eq (h : s.nextTurn = (turn, t)) : t = { s with agenda := t.agenda, turns := t.turns } := by
  have hstate := nextTurn_state s
  rw [h] at hstate
  dsimp only at hstate
  rw [hstate]

theorem nextTurn_cfg (h : s.nextTurn = (turn, t)) : t.cfg = s.cfg := by rw [nextTurn_eq h]

theorem nextTurn_session (h : s.nextTurn = (turn, t)) : t.session = s.session := by rw [nextTurn_eq h]

end NextTurn

/-! ### The configuration (R28) -/

theorem dmaStep_cfg {s s' : State} (h : s.dmaStep = .next s') : s'.cfg = s.cfg := by
  obtain ⟨-, rfl⟩ | ⟨r, buffer, -, -, rfl⟩ := dmaStep_next h
  · rfl
  · rfl

theorem feederStep_cfg {s s' : State} (h : s.feederStep = .next s') : s'.cfg = s.cfg := by
  obtain ⟨-, rfl⟩ | ⟨-, q, rfl⟩ | ⟨i, b, r, r', -, -, -, -, -, rfl⟩ := feederStep_next h
  · rfl
  · rfl
  · rfl

theorem command_cfg {c : Command} {i : Instr} {s s' : State} (hi : decodeCommand c = some i)
    (h : exec i s = .next s') : s'.cfg = s.cfg := by
  obtain ⟨std, ok, -, -, -, ⟨-, rfl⟩ | ⟨-, rfl⟩⟩ | ⟨r, -, ⟨-, rfl⟩ | ⟨v, -, rfl⟩ |
    ⟨x, y, col, -, rfl | ⟨a, v, -, rfl⟩⟩ | ⟨v, -, rfl⟩ | ⟨-, v, rfl⟩⟩ := command_next hi h <;> rfl

/-- Settles O53, by the three kinds of turn. -/
theorem configurationIsImmutable : Obligations.ConfigurationIsImmutable := by
  intro s s' h
  obtain ⟨t, ⟨ht, h⟩ | ⟨ht, h⟩ | ⟨c, i, ht, hi, h⟩⟩ := step_cases h
  · exact (dmaStep_cfg h).trans (nextTurn_cfg ht)
  · exact (feederStep_cfg h).trans (nextTurn_cfg ht)
  · exact (command_cfg hi h).trans (nextTurn_cfg ht)

/-! ### What a turn outside the interrupt context can do to a session (R10, R184) -/

/-- `r'` is what `r` may become outside the interrupt context: `TXI`, `WSEL` and `FB` aside, nothing has changed. -/
def Session.OutsideFeeder (r r' : Session) : Prop := r' = { r with txi := r'.txi, wsel := r'.wsel, fb := r'.fb }

theorem dmaStep_outsideFeeder {s s' : State} {r r' : Session} (hr : s.session = some r) (h : s.dmaStep = .next s')
    (hr' : s'.session = some r') : r.OutsideFeeder r' := by
  obtain ⟨hs, -⟩ | ⟨r₀, buffer, hr₀, -, rfl⟩ := dmaStep_next h
  · cases hs.symm.trans hr
  · cases hr₀.symm.trans hr
    cases hr'
    rfl

theorem command_outsideFeeder {c : Command} {i : Instr} {s s' : State} {r r' : Session} (hr : s.session = some r)
    (hi : decodeCommand c = some i) (h : exec i s = .next s') (hr' : s'.session = some r') :
    r.OutsideFeeder r' := by
  have unchanged : s'.session = s.session → r.OutsideFeeder r' := by
    intro hs
    cases hr'.symm.trans (hs.trans hr)
    rfl
  obtain ⟨std, ok, -, hs, -⟩ | ⟨r₀, hr₀, ⟨-, rfl⟩ | ⟨v, -, rfl⟩ | ⟨x, y, col, -, rfl | ⟨a, v, -, rfl⟩⟩ |
    ⟨v, -, rfl⟩ | ⟨-, v, rfl⟩⟩ := command_next hi h
  case inl => cases hs.symm.trans hr
  all_goals cases hr₀.symm.trans hr
  · cases hr'
  · exact unchanged rfl
  · exact unchanged rfl
  · cases hr'
    rfl
  · exact unchanged rfl
  · cases hr'
    rfl

/-- A step whose turn is a DMA step or a host command stays outside the interrupt context. -/
theorem step_outsideFeeder {s s' t : State} {turn : Turn} {r r' : Session} (hr : s.session = some r)
    (hturn : s.nextTurn = (turn, t)) (hne : turn ≠ .feeder) (h : step s = .next s') (hr' : s'.session = some r') :
    r.OutsideFeeder r' := by
  have hrt : t.session = some r := (nextTurn_session hturn).trans hr
  obtain ⟨t', ⟨ht, h⟩ | ⟨ht, -⟩ | ⟨c, i, ht, hi, h⟩⟩ := step_cases h <;> cases hturn.symm.trans ht
  · exact dmaStep_outsideFeeder hrt h hr'
  · exact absurd rfl hne
  · exact command_outsideFeeder hrt hi h hr'

/-- Settles O49: such a step writes `TXI`, `WSEL` and `FB` alone. -/
theorem countersMoveOnlyInTheFeeder : Obligations.CountersMoveOnlyInTheFeeder := by
  intro s s' t turn r r' hr hturn hne h hr'
  rw [step_outsideFeeder hr hturn hne h hr']
  exact ⟨rfl, rfl, rfl, rfl, rfl, rfl, rfl⟩

/-! ### `FRAME` (R152, R112) -/

/-- A feeder turn leaves `FRAME`, but for the effect of the line it runs. -/
theorem feederStep_frame {s s' : State} {r r' : Session} (hr : s.session = some r) (h : s.feederStep = .next s')
    (hr' : s'.session = some r') :
    r'.frame = r.frame ∨ ∃ i b, s.fetch = .line i b ∧ r'.frame = lineFrame i r.frame := by
  obtain ⟨-, rfl⟩ | ⟨-, q, rfl⟩ | ⟨i, b, r₀, r₁, hf, -, hr₀, heff, -, rfl⟩ := feederStep_next h
  · cases hr.symm.trans hr'
    exact .inl rfl
  · cases hr.symm.trans hr'
    exact .inl rfl
  · cases hr₀.symm.trans hr
    cases hr'
    obtain ⟨-, -, -, -, -, -, hframe, -⟩ := lineEffect_frame heff
    exact .inr ⟨i, b, hf, hframe⟩

/-- Settles O48: only the feeder's turn writes `FRAME`, and of the lines it may run only `EOF` has an effect there. -/
theorem frameAdvancesOnlyAtEof : Obligations.FrameAdvancesOnlyAtEof := by
  intro s s' r r' hr h hr'
  obtain ⟨t, ⟨ht, -⟩ | ⟨ht, hstep⟩ | ⟨c, i, ht, -⟩⟩ := step_cases h
  · left
    rw [step_outsideFeeder hr ht (by simp) h hr']
  · obtain hkept | ⟨i, b, hf, hframe⟩ := feederStep_frame ((nextTurn_session ht).trans hr) hstep hr'
    · exact .inl hkept
    · by_cases hi : i = .eof
      · subst hi
        exact .inr ⟨⟨t, b, ht, hf⟩, by simpa [lineFrame] using hframe⟩
      · exact .inl (by simpa [lineFrame, hi] using hframe)
  · left
    rw [step_outsideFeeder hr ht (by simp) h hr']

end Sys2Proof.Machine
end

section
namespace Sys2Proof.Machine

open Sys2Proof

/-! ### The slot the feeder fetches (R66, R91, R92) -/

/-- Reading one slot is reading the list of all slots. -/
theorem slotCode_eq_getElem? (vtm : List Byte) (k : Nat) : slotCode vtm k = (slotCodes vtm)[k]? := by
  induction vtm generalizing k with
  | nil => simp [slotCode, slotCodes]
  | cons b vtm ih =>
    have hcons : slotCodes (b :: vtm) = lowNibble b :: highNibble b :: slotCodes vtm := rfl
    rw [hcons]
    match k with
    | 0 => rfl
    | 1 => rfl
    | k + 2 =>
      have hbyte : (k + 2) >>> 1 = k >>> 1 + 1 := by simp only [Nat.shiftRight_one]; omega
      simp only [slotCode, hbyte, List.getElem?_cons_succ, Nat.add_mod_right]
      exact ih k

section Lookup
variable {c : Cfg} {r : Session} {code : Nibble}

/-- A fetch that answers has read one of the slots of the frame. -/
theorem lookup_slots (h : r.lookup c = some code) : (c.profile r.std).slots[r.sln.toNat]? = some code := by
  simp only [Session.lookup] at h
  split at h
  · rename_i hsln
    rw [slotCode_eq_getElem?] at h
    rw [Profile.slots, List.getElem?_take_of_lt (by have := BitVec.toInt_eq_toNat_cond r.sln; omega)]
    exact h
  · cases h

/-- A well-formed table holds no reserved code (W4). -/
theorem decodeLine_isSome_of_lookup (hwf : c.violation r.std = none) (h : r.lookup c = some code) :
    (decodeLine code).isSome := by
  have defined : ∀ code : Nibble, code.toNat ≤ 6 → (decodeLine code).isSome := by decide
  obtain ⟨-, -, -, hw4, -⟩ := (violation_eq_none_iff c r.std).mp hwf
  obtain ⟨-, hcodes⟩ := by simpa only [Profile.w4, Bool.and_eq_true] using hw4
  have hmem : code ∈ slotCodes (c.profile r.std).vtm := List.mem_of_mem_take (List.mem_of_getElem? (lookup_slots h))
  exact defined code (by simpa using List.all_eq_true.mp hcodes code hmem)

end Lookup

/-- The three lines with register effects of their own have one code each (R62). -/
theorem decodeLine_effect_iff {code : Nibble} {i : Instr} (h : decodeLine code = some i) :
    (i = .ss ↔ code = 0#4) ∧ (i = .act ↔ code = 5#4) ∧ (i = .eof ↔ code = 6#4) := by
  revert code i
  decide

/-! ### The count of rows along the frame (R13, W6) -/

/-- A slot moves the walk behind W6 as its line moves `PIXLINE`. -/
theorem rowsAfter_of_decodeLine {code : Nibble} {i : Instr} (h : decodeLine code = some i) (rows : Option Nat) :
    rowsAfter rows code = if i = .ss then some 0 else if i = .act then rows.map (· + 1) else rows := by
  obtain ⟨hss, hact, -⟩ := decodeLine_effect_iff h
  simp only [rowsAfter, hss, hact]

theorem rowsSeen_concat (codes : List Nibble) (code : Nibble) :
    rowsSeen (codes ++ [code]) = rowsAfter (rowsSeen codes) code := by
  simp [rowsSeen]

theorem rowsSeen_take_succ {codes : List Nibble} {k : Nat} {code : Nibble} (h : codes[k]? = some code) :
    rowsSeen (codes.take (k + 1)) = rowsAfter (rowsSeen (codes.take k)) code := by
  rw [List.take_add_one, h, Option.toList_some, rowsSeen_concat]

/-- No more rows are counted than slots are walked. -/
theorem rowsSeen_le_length {codes : List Nibble} {n : Nat} (h : rowsSeen codes = some n) : n ≤ codes.length := by
  induction codes using List.reverseRecOn generalizing n with
  | nil => cases h
  | append_singleton codes code ih =>
    rw [rowsSeen_concat, rowsAfter] at h
    rw [List.length_append, List.length_singleton]
    split at h
    · cases h
      omega
    · split at h
      · obtain ⟨m, hm, rfl⟩ := Option.map_eq_some_iff.mp h
        exact Nat.succ_le_succ (ih hm)
      · exact (ih h).trans (Nat.le_succ _)

/-- In a table that W6 accepts, an `ACT` slot comes after an `SS` with fewer than `FBH` rows between. -/
theorem rowsSeen_lt_of_rowsFit {fbh k : Nat} {codes : List Nibble} (hfit : rowsFit fbh none codes = true)
    (hact : codes[k]? = some 5#4) : ∃ n, rowsSeen (codes.take k) = some n ∧ n < fbh := by
  obtain ⟨hk, hcode⟩ := List.getElem?_eq_some_iff.mp hact
  rw [← List.take_append_drop k codes, List.drop_eq_getElem_cons hk, hcode, rowsFit_append, Bool.and_eq_true] at hfit
  obtain ⟨-, hfit⟩ := hfit
  change rowsFit fbh (rowsSeen (codes.take k)) _ = true at hfit
  cases hrows : rowsSeen (codes.take k) with
  | none => simp [hrows, rowsFit] at hfit
  | some n =>
    refine ⟨n, rfl, ?_⟩
    obtain ⟨hn, -⟩ := by simpa [hrows, rowsFit] using hfit
    exact hn

/-! ### The counters (R11, R13) -/

/-- `SLN` and `PIXLINE` read as natural numbers. -/
theorem placed_iff {c : Cfg} {r : Session} (htotal : (c.profile r.std).total ≤ 32767) :
    r.Placed c ↔ r.sln.toNat < (c.profile r.std).total ∧
      (∀ n, rowsSeen ((c.profile r.std).slots.take r.sln.toNat) = some n → r.pixline.toNat = n) ∧
      r.pixline.toNat ≤ (c.profile r.std).fbh := by
  have hsln := BitVec.toInt_eq_toNat_cond r.sln
  constructor
  · rintro ⟨hlow, hhigh, hknown, hbound⟩
    exact ⟨by omega, hknown, hbound⟩
  · rintro ⟨hslot, hknown, hbound⟩
    exact ⟨by omega, by omega, hknown, hbound⟩

theorem total_pos {c : Cfg} {std : Std} (hwf : c.violation std = none) : 0 < (c.profile std).total := by
  obtain ⟨-, -, -, -, hw5, -⟩ := (violation_eq_none_iff c std).mp hwf
  obtain ⟨⟨htotal, -⟩, -⟩ := by simpa [Profile.w5] using hw5
  exact htotal

section Advance
variable {c : Cfg} {r : Session} {code : Nibble} {i : Instr}

/-- An `ACT` that is fetched with the counters in place has its row inside the half (R109, W6). -/
theorem rowOutside_eq_false (hwf : c.violation r.std = none) (hp : r.Placed c) (hcode : r.lookup c = some code)
    (hi : decodeLine code = some .act) : r.rowOutside c = false := by
  obtain ⟨-, -, -, -, -, hw6, -⟩ := (violation_eq_none_iff c r.std).mp hwf
  obtain ⟨-, hact, -⟩ := decodeLine_effect_iff hi
  obtain rfl := hact.mp rfl
  obtain ⟨n, hn, hlt⟩ := rowsSeen_lt_of_rowsFit hw6 (lookup_slots hcode)
  have hpix := hp.rowsKnown n hn
  simpa [Session.rowOutside, hpix] using hlt

/-- After a line that is not `EOF` there is a next slot (W5). -/
theorem succ_sln_lt_total (hwf : c.violation r.std = none) (hslot : r.sln.toNat < (c.profile r.std).total)
    (hcode : r.lookup c = some code) (hne : code ≠ 6#4) : r.sln.toNat + 1 < (c.profile r.std).total := by
  obtain ⟨-, -, -, -, hw5, -⟩ := (violation_eq_none_iff c r.std).mp hwf
  obtain ⟨⟨-, hlast⟩, -⟩ := by simpa [Profile.w5] using hw5
  have hcode := lookup_slots hcode
  by_contra hge
  rw [show r.sln.toNat = (c.profile r.std).total - 1 by omega, hlast] at hcode
  exact hne (Option.some.inj hcode).symm

/-- The row count after the slot is what the slot's line leaves in `PIXLINE`. -/
theorem rowsKnown_linePixline (htotal : (c.profile r.std).total ≤ 32767) (hp : r.Placed c)
    (hcode : r.lookup c = some code) (hi : decodeLine code = some i) {n : Nat}
    (hn : rowsSeen ((c.profile r.std).slots.take (r.sln.toNat + 1)) = some n) :
    (linePixline i r.pixline).toNat = n := by
  obtain ⟨hslot, hknown, -⟩ := (placed_iff htotal).mp hp
  rw [rowsSeen_take_succ (lookup_slots hcode), rowsAfter_of_decodeLine hi] at hn
  simp only [linePixline]
  split at hn
  case isTrue hss =>
    cases hn
    simp [hss]
  case isFalse hss =>
    rw [if_neg hss]
    split at hn
    case isTrue hact =>
      obtain ⟨m, hm, rfl⟩ := Option.map_eq_some_iff.mp hn
      have hpix := hknown m hm
      have hm_le : m ≤ r.sln.toNat := (rowsSeen_le_length hm).trans (List.length_take_le _ _)
      have hnat : (r.pixline + 1#16).toNat = r.pixline.toNat + 1 :=
        BitVec.toNat_add_of_lt (by simp only [BitVec.toNat_ofNat]; omega)
      rw [if_pos hact, hnat, hpix]
    case isFalse hact =>
      rw [if_neg hact]
      exact hknown n hn

/-- No line takes `PIXLINE` beyond `FBH`. -/
theorem linePixline_le_fbh (hwf : c.violation r.std = none) (hp : r.Placed c) (hcode : r.lookup c = some code)
    (hi : decodeLine code = some i) : (linePixline i r.pixline).toNat ≤ (c.profile r.std).fbh := by
  have hbound := hp.rowsBound
  simp only [linePixline]
  split
  · simp
  · split
    · rename_i hact
      subst hact
      have hrow : r.pixline.toNat < (c.profile r.std).fbh := by
        simpa [Session.rowOutside] using rowOutside_eq_false hwf hp hcode hi
      rw [BitVec.toNat_add]
      exact (Nat.mod_le _ _).trans hrow
    · exact hbound

/-- The feeder moves the counters from slot to slot (R17, R112): a line of the table, and the `SLN + 1` of the return,
leave them in place. -/
theorem placed_advance (htotal : (c.profile r.std).total ≤ 32767) (hwf : c.violation r.std = none) (hp : r.Placed c)
    (hcode : r.lookup c = some code) (hi : decodeLine code = some i) {r' : Session} (hstd : r'.std = r.std)
    (hsln : r'.sln = lineSln i r.sln + 1#16) (hpix : r'.pixline = linePixline i r.pixline) : r'.Placed c := by
  obtain ⟨hslot, -, -⟩ := (placed_iff htotal).mp hp
  have hnat : (r.sln + 1#16).toNat = r.sln.toNat + 1 :=
    BitVec.toNat_add_of_lt (by simp only [BitVec.toNat_ofNat]; omega)
  obtain ⟨-, -, heof⟩ := decodeLine_effect_iff hi
  rw [placed_iff (by rwa [hstd]), hstd, hsln, hpix]
  refine ⟨?_, ?_, linePixline_le_fbh hwf hp hcode hi⟩
  · by_cases h : i = .eof
    · simpa [lineSln, h] using total_pos hwf
    · have hnext := succ_sln_lt_total hwf hslot hcode (mt heof.mpr h)
      rw [lineSln, if_neg h, hnat]
      exact hnext
  · intro n hn
    by_cases h : i = .eof
    · simp [lineSln, h, rowsSeen] at hn
    · rw [lineSln, if_neg h, hnat] at hn
      exact rowsKnown_linePixline htotal hp hcode hi hn

end Advance

/-! ### The stores (R21 to R26) -/

section Stores
variable {c : Cfg} {r r' : Session}

/-- The shape of the stores depends on the addresses in `FB`, the lengths in `TX` and the two indices. -/
theorem Session.Stores.of_shape (h : r.Stores c) (hstd : r'.std = r.std) (hfb : r'.fb.map Prod.fst = r.fb.map Prod.fst)
    (htx : r'.tx.map List.length = r.tx.map List.length) (hcur : r'.cur < c.ring) (htxi : r'.txi < c.n) :
    r'.Stores c where
  wellFormed := by rw [hstd]; exact h.wellFormed
  fbCells := by rw [hfb, hstd]; exact h.fbCells
  txCount := by rw [← h.txCount, ← List.length_map (as := r'.tx) List.length, htx, List.length_map]
  txLength := by
    have hlength : ∀ l ∈ r'.tx.map List.length, l = (c.profile r.std).l := by
      rw [htx]
      exact List.forall_mem_map.mpr h.txLength
    rw [hstd]
    exact List.forall_mem_map.mp hlength
  curIn := hcur
  txiIn := htxi

theorem lineEffect_cur_lt {i : Instr} (h : r.LineEffect c i r') (hcur : r.cur < c.ring) : r'.cur < c.ring := by
  obtain ⟨levels, r₁, h₁, rfl⟩ := h
  obtain ⟨-, hcur₁, -⟩ := emits_some h₁
  change r₁.cur < c.ring
  rw [hcur₁ hcur]
  exact Nat.mod_lt _ (by omega)

theorem stores_freshSession {std : Std} (hwf : c.violation std = none) (k : Nat) :
    (freshSession c std k).Stores c := by
  obtain ⟨-, hw2, -⟩ := (violation_eq_none_iff c std).mp hwf
  obtain ⟨-, hn, hring⟩ := by simpa [Cfg.w2] using hw2
  exact ⟨hwf, drawFb_addresses _ _, drawTx_length _ _ _, drawTx_lines _ _ _, hring, by simp [freshSession]; omega⟩

theorem placed_freshSession {std : Std} (htotal : (c.profile std).total ≤ 32767) (hwf : c.violation std = none)
    (k : Nat) : (freshSession c std k).Placed c :=
  (placed_iff htotal).mpr ⟨total_pos hwf, by simp [freshSession, rowsSeen], Nat.zero_le _⟩

end Stores

/-! ### The causes of a recorded fault (R99, R109, R171) -/

/-- A feeder turn that records a fault has fetched a reserved code, or an `ACT` whose row is outside the half. -/
theorem feederStep_fault {s s' : State} {q : FaultReason} (hs : s.fault = none) (h : s.feederStep = .next s')
    (hq : s'.fault = some q) :
    ∃ r code, s.session = some r ∧ r.lookup s.cfg = some code ∧
      ((decodeLine code = none ∧ q = .illegalLineType r.sln code) ∨
        (decodeLine code = some .act ∧ r.rowOutside s.cfg = true ∧ q = .rowOutOfRange r.pixline)) := by
  unfold State.feederStep at h
  split at h
  · cases h
    cases hs.symm.trans hq
  · rename_i i b hf
    obtain ⟨-, r, pend, code, hr, -, hcode, hi⟩ := fetch_line hf
    cases hx : exec i (s.enterFeeder b) with
    | next t =>
      rw [hx, State.finishFeeder] at h
      obtain ⟨rfl, r₁, hr₁, hrow, rfl⟩ | ⟨r₁, r', -, rfl, -⟩ := exec_line_next (decodeLine_isLine hi) hx
      · simp only [enterFeeder_session, hr, Option.map_some, Option.some.injEq] at hr₁
        subst hr₁
        cases h
        exact ⟨r, code, hr, hcode, .inr ⟨hi, hrow, (Option.some.inj hq).symm⟩⟩
      · simp only [withSession_fault, enterFeeder_fault, hs] at h
        obtain ⟨r₂, -, -, rfl⟩ := leaveFeeder_next h
        cases hs.symm.trans hq
    | fault f => rw [hx] at h; cases h
    | refused q => rw [hx] at h; cases h
  · rename_i q' hf
    obtain ⟨-, r, code, hr, hcode, hreserved, rfl⟩ := fetch_reserved hf
    cases h
    exact ⟨r, code, hr, hcode, .inl ⟨hreserved, (Option.some.inj hq).symm⟩⟩
  · cases h

/-! ### The invariant, turn by turn -/

section Inv
variable {s s' : State}

theorem State.Inv.total_le (h : s.Inv) (std : Std) : (s.cfg.profile std).total ≤ 32767 := by
  cases std
  · exact h.ntscTotal
  · exact h.palTotal

/-- What is to show of a step that ends in `READY`. -/
theorem State.Inv.of_ready {r' : Session} (h : s.Inv) (hcfg : s'.cfg = s.cfg) (hfault : s'.fault = none)
    (hirq : s'.irqEn = true) (hr' : s'.session = some r') (hstores : r'.Stores s.cfg) (hplaced : r'.Placed s.cfg)
    (hpend : ∀ b ∈ s'.pend, b < s.cfg.n) : s'.Inv where
  ntscTotal := by rw [hcfg]; exact h.ntscTotal
  palTotal := by rw [hcfg]; exact h.palTotal
  noFault := hfault
  uninit hs := by cases hr'.symm.trans hs
  ready r hr := by
    cases hr'.symm.trans hr
    rw [hcfg]
    exact ⟨hirq, hstores, hplaced, hpend⟩

/-- The schedule is no part of the invariant. -/
theorem inv_nextTurn {t : State} {turn : Turn} (h : s.Inv) (ht : s.nextTurn = (turn, t)) : t.Inv := by
  rw [nextTurn_eq ht]
  exact ⟨h.ntscTotal, h.palTotal, h.noFault, h.uninit, h.ready⟩

/-- The results of commands are no part of the invariant. -/
theorem inv_reply (h : s.Inv) (v : Reply) : (s.reply v).Inv :=
  ⟨h.ntscTotal, h.palTotal, h.noFault, h.uninit, h.ready⟩

theorem inv_dmaStep (h : s.Inv) (hstep : s.dmaStep = .next s') : s'.Inv := by
  obtain ⟨-, rfl⟩ | ⟨r, buffer, hr, -, rfl⟩ := dmaStep_next hstep
  · exact h
  · obtain ⟨hirq, hstores, ⟨hlow, hhigh, hknown, hbound⟩, hpend⟩ := h.ready r hr
    have hn : 0 < s.cfg.n := Nat.zero_lt_of_lt hstores.txiIn
    have hstores' : Session.Stores s.cfg { r with txi := (r.txi + 1) % s.cfg.n } :=
      hstores.of_shape rfl rfl rfl hstores.curIn (Nat.mod_lt _ hn)
    refine h.of_ready rfl h.noFault hirq rfl hstores' ⟨hlow, hhigh, hknown, hbound⟩ ?_
    rw [List.forall_mem_append]
    exact ⟨hpend, by simpa using hstores.txiIn⟩

/-- From a good state the feeder records no fault: the table holds no reserved code (W4) and no row outside (W6). -/
theorem feederStep_noFault (h : s.Inv) (hstep : s.feederStep = .next s') : s'.fault = none := by
  by_contra hfault
  obtain ⟨q, hq⟩ := Option.ne_none_iff_exists'.mp hfault
  obtain ⟨r, code, hr, hcode, hcause⟩ := feederStep_fault h.noFault hstep hq
  obtain ⟨-, hstores, hplaced, -⟩ := h.ready r hr
  obtain ⟨hreserved, -⟩ | ⟨hact, hrow, -⟩ := hcause
  · simpa [hreserved] using decodeLine_isSome_of_lookup hstores.wellFormed hcode
  · cases hrow.symm.trans (rowOutside_eq_false hstores.wellFormed hplaced hcode hact)

theorem inv_feederStep (h : s.Inv) (hstep : s.feederStep = .next s') : s'.Inv := by
  obtain ⟨-, rfl⟩ | ⟨-, q, rfl⟩ | ⟨i, b, r, r', hf, -, hr, heff, -, rfl⟩ := feederStep_next hstep
  · exact h
  · cases feederStep_noFault h hstep
  · obtain ⟨hirq, hstores, hplaced, hpend⟩ := h.ready r hr
    obtain ⟨-, r₀, pend, code, hr₀, -, hcode, hi⟩ := fetch_line hf
    cases hr₀.symm.trans hr
    obtain ⟨hstd, -, -, htxi, hfb, hsln, -, hpix⟩ := lineEffect_frame heff
    obtain ⟨-, -, htx⟩ := lineEffect_tx heff
    have hcur : r'.cur < s.cfg.ring := lineEffect_cur_lt heff hstores.curIn
    have hstores' : Session.Stores s.cfg { r' with sln := r'.sln + 1#16 } :=
      hstores.of_shape hstd (congrArg _ hfb) htx hcur (htxi ▸ hstores.txiIn)
    have hplaced' : Session.Placed s.cfg { r' with sln := r'.sln + 1#16 } :=
      placed_advance (h.total_le r.std) hstores.wellFormed hplaced hcode hi hstd (congrArg (· + 1#16) hsln) hpix
    exact h.of_ready rfl h.noFault hirq rfl hstores' hplaced' fun b hb => hpend b (List.mem_of_mem_tail hb)

/-- The invariant does not depend on the content of `FB` nor on the write half. -/
theorem inv_withSession {r : Session} {fb : List Host.Cell} (h : s.Inv) (hr : s.session = some r)
    (hfb : fb.map Prod.fst = r.fb.map Prod.fst) (wsel : BitVec 1) :
    (s.withSession { r with fb := fb, wsel := wsel }).Inv := by
  obtain ⟨hirq, hstores, ⟨hlow, hhigh, hknown, hbound⟩, hpend⟩ := h.ready r hr
  exact h.of_ready rfl h.noFault hirq rfl (hstores.of_shape rfl hfb rfl hstores.curIn hstores.txiIn)
    ⟨hlow, hhigh, hknown, hbound⟩ hpend

theorem inv_afterInit {std : Std} (h : s.Inv) (hwf : s.cfg.violation std = none) : (s.afterInit std).Inv :=
  h.of_ready rfl rfl rfl rfl (stores_freshSession hwf _) (placed_freshSession (h.total_le std) hwf _) (by simp)

theorem inv_afterDeinit (h : s.Inv) : s.afterDeinit.Inv :=
  ⟨h.ntscTotal, h.palTotal, h.noFault, fun _ => ⟨rfl, rfl, rfl, rfl⟩, fun _ hr => by cases hr⟩

theorem inv_command {c : Command} {i : Instr} (h : s.Inv) (hi : decodeCommand c = some i)
    (hx : exec i s = .next s') : s'.Inv := by
  obtain ⟨std, ok, -, -, hwf, ⟨-, rfl⟩ | ⟨-, rfl⟩⟩ | ⟨r, hr, ⟨-, rfl⟩ | ⟨v, -, rfl⟩ |
    ⟨x, y, col, -, rfl | ⟨a, v, -, rfl⟩⟩ | ⟨v, -, rfl⟩ | ⟨-, v, rfl⟩⟩ := command_next hi hx
  · exact inv_reply (inv_afterInit h hwf) _
  · exact inv_reply h _
  · exact inv_afterDeinit h
  · obtain ⟨hirq, hstores, hplaced, hpend⟩ := h.ready r hr
    exact h.of_ready rfl h.noFault hirq hr hstores hplaced hpend
  · exact h
  · exact inv_withSession h hr (memory_put_addresses _ _ _) _
  · exact inv_reply h v
  · exact inv_reply (inv_withSession h hr rfl _) v

end Inv

/-- Settles O43, by the three kinds of turn. -/
theorem stepKeepsTheInvariant : Obligations.StepKeepsTheInvariant := by
  intro s s' h hstep
  obtain ⟨t, ⟨ht, hturn⟩ | ⟨ht, hturn⟩ | ⟨c, i, ht, hi, hturn⟩⟩ := step_cases hstep
  · exact inv_dmaStep (inv_nextTurn h ht) hturn
  · exact inv_feederStep (inv_nextTurn h ht) hturn
  · exact inv_command (inv_nextTurn h ht) hi hturn

end Sys2Proof.Machine
end

section
namespace Sys2Proof.Machine

open Sys2Proof

/-! ### The step by the turn it takes (R50, R51) -/

section Turn
variable {s t : State}

theorem nextTurn_pend {turn : Turn} (h : s.nextTurn = (turn, t)) : t.pend = s.pend := by rw [nextTurn_eq h]

theorem step_of_dma (h : s.nextTurn = (.dma, t)) : step s = t.dmaStep := by rw [step, h]

theorem step_of_feeder (h : s.nextTurn = (.feeder, t)) : step s = t.feederStep := by rw [step, h]

theorem step_of_host {c : Command} {i : Instr} (h : s.nextTurn = (.host c, t)) (hi : decodeCommand c = some i) :
    step s = exec i t := by
  rw [step, h]
  simp only [State.hostStep, hi]

/-- With an empty schedule and no feeder step enabled only the DMA agent can move. -/
theorem nextTurn_free_idle (ha : s.agenda = []) (he : s.feederEnabled = false) : s.nextTurn = (.dma, s) := by
  simp [State.nextTurn, ha, he]

/-- With an empty schedule and a feeder step enabled the turn is a free value (log 6). -/
theorem nextTurn_free_enabled (ha : s.agenda = []) (he : s.feederEnabled = true) :
    s.nextTurn = (if Config.feederFirst s.turns then .feeder else .dma, { s with turns := s.turns + 1 }) := by
  simp [State.nextTurn, ha, he]

end Turn

/-- Settles O4: the head of the schedule is the turn taken. -/
theorem stepRunsTheScheduledTurn : Obligations.StepRunsTheScheduledTurn := by
  intro s rest
  refine ⟨fun ha => ?_, fun ha => ?_, fun c i ha hi => ?_⟩
  · exact step_of_dma (nextTurn_cons ha)
  · exact step_of_feeder (nextTurn_cons ha)
  · exact step_of_host (nextTurn_cons ha) hi

/-- Settles O8, by whether a feeder step is enabled and, where it is, by the free value. -/
theorem freeScheduleMovesAnAgent : Obligations.FreeScheduleMovesAnAgent := by
  intro s ha
  refine ⟨fun he => step_of_dma (nextTurn_free_idle ha he), fun he => ?_⟩
  have hturn := nextTurn_free_enabled ha he
  split at hturn
  · exact .inr (step_of_feeder hturn)
  · exact .inl (step_of_dma hturn)

/-! ### Who writes a transmission buffer (R56) -/

/-- A feeder turn changes no buffer but the one at the head of `PEND`. -/
theorem feederStep_tx {s s' : State} {r r' : Session} {b : Nat} (hr : s.session = some r)
    (h : s.feederStep = .next s') (hr' : s'.session = some r') (hb : s.pend.head? ≠ some b) :
    r'.tx[b]? = r.tx[b]? := by
  obtain ⟨-, rfl⟩ | ⟨-, q, rfl⟩ | ⟨i, b₀, r₀, r₁, hf, -, hr₀, heff, -, rfl⟩ := feederStep_next h
  · cases hr.symm.trans hr'
    rfl
  · cases hr.symm.trans hr'
    rfl
  · cases hr₀.symm.trans hr
    cases hr'
    obtain ⟨-, -, pend, -, -, hpend, -⟩ := fetch_line hf
    obtain ⟨-, hother, -⟩ := lineEffect_tx heff
    have hne : b ≠ b₀ := fun heq => hb (by rw [hpend, heq]; rfl)
    exact hother b hne

/-- Settles O51: outside the feeder's turn no buffer changes, and in it only the one it refills. -/
theorem feederWritesOnlyItsBuffer : Obligations.FeederWritesOnlyItsBuffer := by
  intro s s' r r' b hr h hr' hchanged
  by_contra hb
  apply hchanged
  obtain ⟨t, ⟨ht, -⟩ | ⟨ht, hstep⟩ | ⟨c, i, ht, -⟩⟩ := step_cases h
  · rw [step_outsideFeeder hr ht (by simp) h hr']
  · exact feederStep_tx ((nextTurn_session ht).trans hr) hstep hr' (by rwa [nextTurn_pend ht])
  · rw [step_outsideFeeder hr ht (by simp) h hr']

/-! ### The two halves of the framebuffer (R47, R151) -/

/-- The half handed out is never the half shown. -/
theorem backHalf_eq_not_frontHalf (frame : BitVec 32) : backHalf frame = ~~~frontHalf frame := by
  apply BitVec.eq_of_toNat_eq
  simp only [backHalf, frontHalf, BitVec.extractLsb'_toNat, BitVec.toNat_add, BitVec.toNat_not, BitVec.toNat_ofNat]
  omega

section Halves
variable {p : Profile} {h h' a : Nat}

/-- Every byte of every row of a half is a byte of that half. -/
theorem inHalf_rowByte {row j : Nat} (hrow : row < p.fbh) (hj : j < p.stride) : inHalf p h (rowByte p h row j) := by
  have hlast : (row + 1) * p.stride ≤ p.fbh * p.stride := Nat.mul_le_mul_right _ hrow
  rw [Nat.succ_mul, Nat.mul_comm p.fbh] at hlast
  simp only [inHalf, rowByte, Profile.half]
  omega

/-- A byte belongs to one half only. -/
theorem inHalf_unique (ha : inHalf p h a) (ha' : inHalf p h' a) : h = h' := by
  obtain ⟨hlow, hhigh⟩ := ha
  obtain ⟨hlow', hhigh'⟩ := ha'
  rw [← Nat.succ_mul] at hhigh hhigh'
  have hle : h < h' + 1 := Nat.lt_of_mul_lt_mul_right (hlow.trans_lt hhigh')
  have hge : h' < h + 1 := Nat.lt_of_mul_lt_mul_right (hlow'.trans_lt hhigh)
  omega

/-- A coordinate that is not negative is below a bound as an unsigned number too (R69). -/
theorem coord_toNat_lt {x : Coord} {w : Nat} (hlow : 0 ≤ x.toInt) (hhigh : x.toInt < (w : Int)) : x.toNat < w := by
  have hbits := x.isLt
  rw [BitVec.toInt_eq_toNat_cond] at hlow hhigh
  split at hlow <;> omega

theorem inRange_toNat_lt {w : Nat} {x y : Coord} (hin : inRange p w x y = true) : x.toNat < w ∧ y.toNat < p.fbh := by
  obtain ⟨hx, hxw, hy, hyh⟩ := of_decide_eq_true hin
  exact ⟨coord_toNat_lt hx hxw, coord_toNat_lt hy hyh⟩

/-- Rows are whole bytes for either density (W1, R46). -/
theorem fbw_eq_stride (hw1 : p.w1 = true) : p.fbw = 4 * p.stride ∧ p.fbw2 = 2 * p.stride := by
  obtain ⟨-, hmod⟩ := of_decide_eq_true hw1
  simp only [Profile.fbw2, Profile.stride]
  omega

theorem inHalf_sdAddress {x y : Coord} (hw1 : p.w1 = true) (hin : inRange p p.fbw2 x y = true) :
    inHalf p h (sdAddress p h x y) := by
  obtain ⟨hx, hy⟩ := inRange_toNat_lt hin
  obtain ⟨-, hwidth⟩ := fbw_eq_stride hw1
  exact inHalf_rowByte hy (by rw [Nat.shiftRight_eq_div_pow]; omega)

theorem inHalf_ddAddress {x y : Coord} (hw1 : p.w1 = true) (hin : inRange p p.fbw x y = true) :
    inHalf p h (ddAddress p h x y) := by
  obtain ⟨hx, hy⟩ := inRange_toNat_lt hin
  obtain ⟨hwidth, -⟩ := fbw_eq_stride hw1
  exact inHalf_rowByte hy (by rw [Nat.shiftRight_eq_div_pow]; omega)

end Halves

/-! ### Drawing stays in the half `WSEL` selects (R140) -/

/-- `t` is what a pixel write may make of `s`: nothing, or one byte of half `WSEL` replaced. -/
def State.DrawsInHalf (s : State) (r : Session) (t : State) : Prop :=
  t = s ∨ ∃ a v, inHalf (s.cfg.profile r.std) r.wsel.toNat a ∧ t = s.withSession { r with fb := Memory.put r.fb a v }

section Drawing
variable {s t : State} {r : Session} {x y : Coord}

theorem writeSd_drawsInHalf {c : Nibble} (hw1 : (s.cfg.profile r.std).w1 = true) (h : s.writeSd r x y c = .next t) :
    s.DrawsInHalf r t := by
  obtain ⟨-, rfl⟩ | ⟨hin, b, -, rfl⟩ := writeSd_next h
  · exact .inl rfl
  · exact .inr ⟨_, _, inHalf_sdAddress hw1 hin, rfl⟩

theorem writeDd_drawsInHalf {white : Bool} (hw1 : (s.cfg.profile r.std).w1 = true)
    (h : s.writeDd r x y white = .next t) : s.DrawsInHalf r t := by
  obtain ⟨-, rfl⟩ | ⟨hin, b, -, rfl⟩ := writeDd_next h
  · exact .inl rfl
  · exact .inr ⟨_, _, inHalf_ddAddress hw1 hin, rfl⟩

theorem execTack_drawsInHalf {col : Byte} (hr : s.session = some r) (hw1 : (s.cfg.profile r.std).w1 = true)
    (h : execTack x y col s = .next t) : s.DrawsInHalf r t := by
  obtain ⟨r₀, hr₀, rfl | h | ⟨white, h⟩⟩ := execTack_next h <;> cases hr₀.symm.trans hr
  · exact .inl rfl
  · exact writeSd_drawsInHalf hw1 h
  · exact writeDd_drawsInHalf hw1 h

/-- A byte outside the selected half reads as before. -/
theorem State.DrawsInHalf.readFb_eq {a : Nat} (h : s.DrawsInHalf r t) (hr : s.session = some r)
    (ha : ¬ inHalf (s.cfg.profile r.std) r.wsel.toNat a) : t.readFb a = s.readFb a := by
  obtain rfl | ⟨a₀, v, ha₀, rfl⟩ := h
  · rfl
  · have hne : a ≠ a₀ := fun heq => ha (heq ▸ ha₀)
    have hfb : s.fb = r.fb := by simp only [State.fb, hr]
    rw [State.readFb, State.readFb, withSession_fb, hfb]
    exact memory_read_put_other _ _ _ _ hne

end Drawing

/-- A host command after which the block is still `READY` leaves every byte outside the half `WSEL` selects. -/
theorem command_readFb_eq {c : Command} {i : Instr} {s s' : State} {r : Session} {a : Nat}
    (hi : decodeCommand c = some i) (h : exec i s = .next s') (hr : s.session = some r)
    (hw1 : (s.cfg.profile r.std).w1 = true) (hready : s'.session ≠ none)
    (ha : ¬ inHalf (s.cfg.profile r.std) r.wsel.toNat a) : s'.readFb a = s.readFb a := by
  obtain ⟨std, ok, -, hs, -⟩ | ⟨r₀, hr₀, ⟨-, rfl⟩ | ⟨v, -, rfl⟩ | ⟨x, y, col, rfl, -⟩ | ⟨v, -, rfl⟩ |
    ⟨-, v, rfl⟩⟩ := command_next hi h
  · cases hs.symm.trans hr
  · exact absurd rfl hready
  · rfl
  · exact (execTack_drawsInHalf hr hw1 h).readFb_eq hr ha
  · rfl
  · cases hr₀.symm.trans hr
    simp only [State.readFb, State.fb, reply_session, withSession_session, hr]

/-! ### The current handle (R52, R163) -/

section Punctual
variable {s s' : State}

/-- What is to show of a state in `READY`. -/
theorem punctual_of_session {r : Session} (hr : s.session = some r) (h : r.wsel = backHalf r.frame) : s.Punctual := by
  intro r' hr'
  cases hr.symm.trans hr'
  exact h

theorem punctual_of_uninit (hs : s.session = none) : s.Punctual := fun _ hr => by cases hs.symm.trans hr

/-- Only the session counts. -/
theorem punctual_congr (h : s'.session = s.session) (hp : s.Punctual) : s'.Punctual := fun r hr => hp r (h ▸ hr)

theorem punctual_afterInit (std : Std) : (s.afterInit std).Punctual :=
  punctual_of_session (afterInit_session s std) rfl

theorem punctual_execInit {std : Std} {ok : Bool} (h : execInit std ok s = .next s') : s'.Punctual := by
  obtain ⟨hs, -, ⟨-, rfl⟩ | ⟨-, rfl⟩⟩ := execInit_next h
  · exact punctual_congr (reply_session ..) (punctual_afterInit std)
  · exact punctual_of_uninit hs

theorem punctual_execGetBack (h : execGetBack s = .next s') : s'.Punctual := by
  obtain ⟨r, -, h⟩ := whenReady_next h
  cases h
  exact punctual_of_session rfl rfl

theorem punctual_dmaStep (hp : s.Punctual) (h : s.dmaStep = .next s') : s'.Punctual := by
  obtain ⟨-, rfl⟩ | ⟨r, buffer, hr, -, rfl⟩ := dmaStep_next h
  · exact hp
  · exact punctual_of_session rfl (hp r hr)

/-- The feeder writes neither `WSEL` nor, unless it runs `EOF`, `FRAME`. -/
theorem punctual_feederStep (hp : s.Punctual) (hne : ∀ b, s.fetch ≠ .line .eof b) (h : s.feederStep = .next s') :
    s'.Punctual := by
  obtain ⟨-, rfl⟩ | ⟨-, q, rfl⟩ | ⟨i, b, r, r', hf, -, hr, heff, -, rfl⟩ := feederStep_next h
  · exact hp
  · exact punctual_congr (raise_session ..) hp
  · have hi : i ≠ .eof := fun heq => hne b (heq ▸ hf)
    obtain ⟨-, hwsel, -, -, -, -, hframe, -⟩ := lineEffect_frame heff
    simp only [lineFrame, if_neg hi] at hframe
    refine punctual_of_session rfl ?_
    dsimp only
    rw [hwsel, hframe]
    exact hp r hr

theorem punctual_command {c : Command} {i : Instr} (hp : s.Punctual) (hi : decodeCommand c = some i)
    (h : exec i s = .next s') : s'.Punctual := by
  obtain ⟨std, ok, rfl, -⟩ | ⟨r, hr, ⟨-, rfl⟩ | ⟨v, -, rfl⟩ | ⟨x, y, col, -, rfl | ⟨a, v, -, rfl⟩⟩ |
    ⟨v, -, rfl⟩ | ⟨rfl, -⟩⟩ := command_next hi h
  · exact punctual_execInit h
  · exact punctual_of_uninit (afterDeinit_session s)
  · exact punctual_congr rfl hp
  · exact hp
  · exact punctual_of_session rfl (hp r hr)
  · exact punctual_congr (reply_session ..) hp
  · exact punctual_execGetBack h

/-- A current handle is lost by `EOF` alone. -/
theorem step_keeps_punctual (hp : s.Punctual) (h : step s = .next s') (hne : ¬ s.RunsEof) : s'.Punctual := by
  obtain ⟨t, ⟨ht, h⟩ | ⟨ht, h⟩ | ⟨c, i, ht, hi, h⟩⟩ := step_cases h
  · exact punctual_dmaStep (punctual_congr (nextTurn_session ht) hp) h
  · exact punctual_feederStep (punctual_congr (nextTurn_session ht) hp) (fun b hf => hne ⟨t, b, ht, hf⟩) h
  · exact punctual_command (punctual_congr (nextTurn_session ht) hp) hi h

/-- The front half is outside the half a current handle writes. -/
theorem not_inHalf_wsel_of_front {p : Profile} {r : Session} {a : Nat} (hwsel : r.wsel = backHalf r.frame)
    (ha : inHalf p (frontHalf r.frame).toNat a) : ¬ inHalf p r.wsel.toNat a := by
  intro ha'
  have hsame : frontHalf r.frame = ~~~frontHalf r.frame := by
    rw [← backHalf_eq_not_frontHalf, ← hwsel]
    exact BitVec.eq_of_toNat_eq (inHalf_unique ha ha')
  generalize frontHalf r.frame = half at hsame
  revert half
  decide

end Punctual

/-- Settles O55: the handle by the three kinds of turn, the front half by the disjointness of the halves. -/
theorem punctualClientNeverTears : Obligations.PunctualClientNeverTears := by
  refine ⟨fun s t std h => punctual_execInit h, fun s t h => punctual_execGetBack h,
    fun s s' hp h hne => step_keeps_punctual hp h hne, ?_⟩
  intro s s' c rest r hinv hp hagenda hr h hready a ha
  obtain ⟨-, hstores, -, -⟩ := hinv.ready r hr
  obtain ⟨hw1, -⟩ := (violation_eq_none_iff _ _).mp hstores.wellFormed
  have hturn := nextTurn_cons hagenda
  obtain ⟨t, ⟨ht, -⟩ | ⟨ht, -⟩ | ⟨c', i, ht, hi, hx⟩⟩ := step_cases h <;> cases hturn.symm.trans ht
  calc s'.readFb a = State.readFb { s with agenda := rest } a :=
        command_readFb_eq hi hx hr hw1 hready (not_inHalf_wsel_of_front (hp r hr) ha)
    _ = s.readFb a := rfl

end Sys2Proof.Machine
end

section
namespace Sys2Proof.Machine

open Sys2Proof

/-! ### The nibbles of a byte (R7, R61, R74) -/

theorem lowNibble_packNibbles (low high : Nibble) : lowNibble (packNibbles low high) = low :=
  BitVec.extractLsb'_append_eq_right

theorem highNibble_packNibbles (low high : Nibble) : highNibble (packNibbles low high) = high :=
  BitVec.extractLsb'_append_eq_left

theorem packNibbles_nibbles (b : Byte) : packNibbles (lowNibble b) (highNibble b) = b := by
  revert b
  decide

theorem highNibble_eq_zero_iff (b : Byte) : highNibble b = 0#4 ↔ b.toNat < 16 := by
  revert b
  decide

/-! ### The decoder, format by format (R62, R63, R64) -/

theorem toBit_ofBit (b : BitVec 1) : (Std.ofBit b).toBit = b := by
  revert b
  decide

theorem ofBool_decide_eq_one (b : BitVec 1) : BitVec.ofBool (decide (b = 1#1)) = b := by
  revert b
  decide

/-- The codes 9 to 15 of the command port are reserved (R71). -/
theorem decodeCommand_reserved {c : Command} (h : 9 ≤ c.cmd.toNat) : decodeCommand c = none := by
  unfold decodeCommand
  split
  case h_10 => rfl
  all_goals omega

/-- The three ranges of a colour that decodes (R64). -/
theorem decodePixel_some {x y : Coord} {col : Byte} {i : Instr} (h : decodePixel x y col = some i) :
    (highNibble col = 0#4 ∧ i = .pixsd x y (lowNibble col)) ∨ (col = 16#8 ∧ i = .pixdd0 x y) ∨
      (col = 17#8 ∧ i = .pixdd1 x y) := by
  unfold decodePixel at h
  split_ifs at h with hsd hblack hwhite <;> cases h
  · exact .inl ⟨hsd, rfl⟩
  · exact .inr (.inl ⟨hblack, rfl⟩)
  · exact .inr (.inr ⟨hwhite, rfl⟩)

theorem decodePixel_pixsd (x y : Coord) (c : Nibble) : decodePixel x y (packNibbles c 0#4) = some (.pixsd x y c) := by
  rw [decodePixel, if_pos (highNibble_packNibbles c 0#4), lowNibble_packNibbles]

/-- A colour that decodes to nothing is one of 18 to 255 (R71). -/
theorem lt_toNat_of_decodePixel_none {x y : Coord} {col : Byte} (h : decodePixel x y col = none) :
    17 < col.toNat := by
  unfold decodePixel at h
  split_ifs at h with hsd hblack hwhite
  rw [highNibble_eq_zero_iff] at hsd
  bv_omega

/-! ### Decoding and encoding -/

theorem decode_encode (i : Instr) : decode (encode i) = .ok i := by
  cases i
  case init std allocOk => cases std <;> cases allocOk <;> rfl
  case pixsd x y c => simp only [encode, decode, decodePixel_pixsd]
  all_goals rfl

theorem encode_of_decodeLine {code : Nibble} {i : Instr} (h : decodeLine code = some i) : encode i = .line code := by
  unfold decodeLine at h
  split at h <;> cases h
  all_goals
    rename_i hcode
    obtain ⟨-, rfl⟩ := BitVec.toNat_eq_nat.mp hcode
    rfl

/-- Of a command's operand fields only those of `INIT` and `TACK` count (R63). -/
theorem encode_of_decodeCommand {c : Command} {i : Instr} (h : decodeCommand c = some i) :
    encode i = Item.canonical (.command c) := by
  obtain ⟨cmd, std, allocOk, x, y, col⟩ := c
  simp only [decodeCommand] at h
  split at h <;> cases h
  all_goals
    rename_i hcode
    obtain ⟨-, rfl⟩ := BitVec.toNat_eq_nat.mp hcode
  case h_1 => simp [encode, Item.canonical, bareCommand, toBit_ofBit, ofBool_decide_eq_one]
  all_goals rfl

theorem encode_of_decodePixel {x y : Coord} {col : Byte} {i : Instr} (h : decodePixel x y col = some i) :
    encode i = .pixel x y col := by
  obtain ⟨hsd, rfl⟩ | ⟨rfl, rfl⟩ | ⟨rfl, rfl⟩ := decodePixel_some h
  · rw [encode, ← hsd, packNibbles_nibbles]
  · rfl
  · rfl

theorem encode_of_decode {item : Item} {i : Instr} (h : decode item = .ok i) : encode i = item.canonical := by
  cases item with
  | line code =>
    simp only [decode] at h
    split at h <;> cases h
    exact encode_of_decodeLine ‹_›
  | command c =>
    simp only [decode] at h
    split at h <;> cases h
    exact encode_of_decodeCommand ‹_›
  | pixel x y col =>
    simp only [decode] at h
    split at h <;> cases h
    exact encode_of_decodePixel ‹_›

/-- Ignored operand fields have no part in an item's format. -/
theorem canonical_wellFormedFor (item : Item) (i : Instr) : item.canonical.wellFormedFor i = item.wellFormedFor i := by
  unfold Item.canonical
  split
  · split <;> rfl
  · rfl

theorem encode_wellFormedFor (i : Instr) : (encode i).wellFormedFor i = true := by cases i <;> rfl

/-- Settles O37: the converse goes format by format, and an item has the format of its canonical form, which is that of
the instruction's encoding. -/
theorem decodeAndEncodeAgree : Obligations.DecodeAndEncodeAgree := by
  refine ⟨decode_encode, fun item i h => ?_⟩
  have hcanonical : encode i = item.canonical := encode_of_decode h
  refine ⟨hcanonical, ?_⟩
  rw [← canonical_wellFormedFor, ← hcanonical]
  exact encode_wellFormedFor i

/-- Settles O39, by evaluating the decoder on each word. -/
theorem writtenOutWordsDecode : Obligations.WrittenOutWordsDecode :=
  ⟨rfl, rfl, rfl, rfl, rfl, rfl, rfl, rfl, rfl, rfl⟩

/-! ### Line programs (R78, R91) -/

/-- A line instruction has a line-type code, which decodes to it. -/
theorem lineCode_of_isLine {i : Instr} (h : i.isLine = true) :
    ∃ code, lineCode i = some code ∧ decodeLine code = some i :=
  match i, h with
  | .ss, _ | .ls, _ | .bk, _ | .s2l, _ | .l2s, _ | .act, _ | .eof, _ => ⟨_, rfl, rfl⟩

/-- Every line program has a list of codes, which decodes to it instruction by instruction. -/
theorem mapM_lineCode {program : List Instr} (h : programWellFormed program = true) :
    ∃ codes, program.mapM lineCode = some codes ∧ codes.map decodeLine = program.map some := by
  induction program with
  | nil => exact ⟨[], rfl, rfl⟩
  | cons i program ih =>
    obtain ⟨hline, hprogram⟩ := by simpa only [programWellFormed, List.all_cons, Bool.and_eq_true] using h
    obtain ⟨code, hcode, hdecode⟩ := lineCode_of_isLine hline
    obtain ⟨codes, hcodes, hdecodes⟩ := ih hprogram
    exact ⟨code :: codes, by simp [hcode, hcodes], by simp [hdecode, hdecodes]⟩

theorem packSlots_length (codes : List Nibble) : (packSlots codes).length = (codes.length + 1) / 2 := by
  induction codes using packSlots.induct with
  | case1 => rfl
  | case2 a => simp [packSlots]
  | case3 a b codes ih =>
    simp only [packSlots, List.length_cons, ih]
    omega

theorem slotCodes_packNibbles_cons (low high : Nibble) (vtm : List Byte) :
    slotCodes (packNibbles low high :: vtm) = low :: high :: slotCodes vtm := by
  simp [slotCodes, lowNibble_packNibbles, highNibble_packNibbles]

/-- The slots of a packed table are the codes it was packed from and, after an odd number of them, `EOF`. -/
theorem slotCodes_packSlots (codes : List Nibble) :
    slotCodes (packSlots codes) = codes ++ if codes.length % 2 = 1 then [6#4] else [] := by
  induction codes using packSlots.induct with
  | case1 => rfl
  | case2 a => exact slotCodes_packNibbles_cons a 6#4 []
  | case3 a b codes ih => simp [packSlots, slotCodes_packNibbles_cons, ih, Nat.add_assoc]

theorem slotCode_packSlots {codes : List Nibble} {k : Nat} (h : k < codes.length) :
    slotCode (packSlots codes) k = codes[k]? := by
  rw [slotCode_eq_getElem?, slotCodes_packSlots, List.getElem?_append_left h]

theorem slotCode_packSlots_padding {codes : List Nibble} (h : codes.length % 2 = 1) :
    slotCode (packSlots codes) codes.length = some 6#4 := by
  rw [slotCode_eq_getElem?, slotCodes_packSlots, if_pos h, List.getElem?_concat_length]

/-- Settles O38: the program's codes decode to it, and the slots of the packed table are those codes and the padding. -/
theorem assembledProgramsAreFetchedBack : Obligations.AssembledProgramsAreFetchedBack := by
  intro program hwf
  obtain ⟨codes, hcodes, hdecodes⟩ := mapM_lineCode hwf
  have hlength : codes.length = program.length := by simpa using congrArg List.length hdecodes
  rw [← hlength]
  refine ⟨packSlots codes, by simp [assemble, hcodes], packSlots_length codes, fun k i hk => ?_,
    slotCode_packSlots_padding⟩
  have hslot : codes[k]?.map decodeLine = some (some i) := by
    rw [← List.getElem?_map, hdecodes, List.getElem?_map, hk, Option.map_some]
  obtain ⟨code, hcode, hdecode⟩ := Option.map_eq_some_iff.mp hslot
  obtain ⟨hlt, -⟩ := List.getElem?_eq_some_iff.mp hcode
  exact ⟨code, (slotCode_packSlots hlt).trans hcode, hdecode⟩

/-! ### `TACK` by the range of its colour (R135) -/

section Tack
variable {s : State} {col : Byte} (x y : Coord)

theorem execTack_of_invalid {r : Session} (hr : s.session = some r) (hcol : s.cfg.maxCol < col.toNat) :
    execTack x y col s = .next s := by
  simp [execTack, whenReady_ready _ hr, hcol]

theorem execTack_of_single (hmax : col.toNat ≤ s.cfg.maxCol) (hcol : col.toNat < s.cfg.ddBase) :
    execTack x y col s = execPixsd x y (lowNibble col) s := by
  simp [execTack, execPixsd, hmax.not_gt, hcol]

theorem execTack_of_double {white : Bool} (hmax : col.toNat ≤ s.cfg.maxCol) (hcol : s.cfg.ddBase ≤ col.toNat)
    (hwhite : decide (col.toNat = s.cfg.ddWhite) = white) :
    execTack x y col s = s.whenReady fun r => s.writeDd r x y white := by
  simp [execTack, hmax.not_gt, hcol.not_gt, hwhite]

end Tack

/-- Settles O33: with the source's codes the ranges `TACK` compares with are those the decoder reads. -/
theorem tackIsItsPixelDecoding : Obligations.TackIsItsPixelDecoding := by
  intro s x y col hbase hwhite hmax
  refine ⟨fun i hi => ?_, fun hnone r hr => ?_⟩
  · obtain ⟨hsd, rfl⟩ | ⟨rfl, rfl⟩ | ⟨rfl, rfl⟩ := decodePixel_some hi
    · have hlt : col.toNat < 16 := (highNibble_eq_zero_iff col).mp hsd
      exact execTack_of_single x y (by omega) (by omega)
    · exact execTack_of_double x y (by simp [hmax]) (by simp [hbase]) (by simp [hwhite])
    · exact execTack_of_double x y (by simp [hmax]) (by simp [hbase]) (by simp [hwhite])
  · have hinvalid : 17 < col.toNat := lt_toNat_of_decodePixel_none hnone
    exact execTack_of_invalid x y hr (by omega)

/-! ### Reserved command codes (R71) -/

/-- Settles O5: the command port finds no instruction for the code, whatever the state. -/
theorem reservedCommandsAreRefused : Obligations.ReservedCommandsAreRefused := by
  intro s c rest hagenda hcode
  have hreserved : decodeCommand c = none := decodeCommand_reserved hcode
  rw [step, nextTurn_cons hagenda]
  simp only [State.hostStep, hreserved]

end Sys2Proof.Machine
end

section
namespace Sys2Proof.Machine

open Sys2Proof

/-! ### `EMIT` and `FILL` (R83, R84) -/

/-- Settles O19: the exact `EMIT` of a place that exists. -/
theorem emitAppendsOneSample : Obligations.EmitAppendsOneSample :=
  fun _ lv _ hcur hwp hbuf => emit_eq lv hcur hwp hbuf

/-- What emitting a list of codes does where the line has room for it. -/
theorem emits_eq {c : Cfg} {levels : List Nibble} {r : Session} (hcur : r.cur < c.ring) (hbuf : r.buf < c.n)
    (hroom : r.wp + levels.length ≤ (c.profile r.std).l) :
    r.emits c levels = some { r with
      tx := r.tx.modify r.buf fun old => overwrite old r.wp (Cfg.waveform c r.cur levels)
      wp := r.wp + levels.length
      cur := (r.cur + levels.length) % c.ring } := by
  obtain ⟨r', hr'⟩ := Option.isSome_iff_exists.mp (emits_isSome hcur hbuf hroom)
  obtain ⟨hframe, hring, htx⟩ := emits_some hr'
  rw [hr', hframe, hring hcur, htx]

/-- A segment `FILL(qty, lv)` is `qty` consecutive entries of column `lv` of the ring. -/
theorem waveform_replicate_getElem? (c : Cfg) (cur : Nat) (lv : Nibble) {qty k : Nat} (hk : k < qty) :
    (Cfg.waveform c cur (List.replicate qty lv))[k]? = some (Cfg.sampleAt c (cur + k) lv) := by
  rw [waveform_getElem?, List.getElem?_replicate_of_lt hk, Option.map_some]

/-- What `FILL(qty, lv)` leaves at offset `k` of the buffer it writes to. -/
theorem overwrite_replicate_getElem? (c : Cfg) (cur : Nat) (lv : Nibble) (qty : Nat) {old : List Sample} (wp : Nat)
    {k : Nat} (hk : k < old.length) :
    (overwrite old wp (Cfg.waveform c cur (List.replicate qty lv)))[k]? =
      if wp ≤ k ∧ k < wp + qty then some (Cfg.sampleAt c (cur + (k - wp)) lv) else old[k]? := by
  rw [overwrite_getElem? _ _ _ _ hk, waveform_length, List.length_replicate]
  split
  next hin => exact waveform_replicate_getElem? c cur lv (by omega)
  next => rfl

/-- Settles O20: `FILL` emits `qty` copies of its code, which overwrites `TX[BUF]` from `WP` on and no other buffer. -/
theorem fillCopiesTheRing : Obligations.FillCopiesTheRing := by
  intro c lv qty r hstores hbuf hroom
  have hfill := emits_eq (levels := List.replicate qty lv) hstores.curIn hbuf (by simpa using hroom)
  rw [← fill_eq_emits, List.length_replicate] at hfill
  refine ⟨_, hfill, List.length_modify .., fun b hb => List.getElem?_modify_ne _ _ hb.symm, fun old hold => ?_⟩
  refine ⟨overwrite old r.wp (Cfg.waveform c r.cur (List.replicate qty lv)), ?_, overwrite_length .., fun k hk => ?_⟩
  · rw [List.getElem?_modify_eq, hold, Option.map_eq_map, Option.map_some]
  · exact overwrite_replicate_getElem? c r.cur lv qty r.wp hk

end Sys2Proof.Machine
end

section
namespace Sys2Proof.Machine

open Sys2Proof

/-! ### LOOKUP (R66, R91, R92) -/

theorem slotCode_even (vtm : List Byte) (i : Nat) : slotCode vtm (2 * i) = vtm[i]?.map lowNibble := by
  have hbyte : (2 * i) >>> 1 = i := by rw [Nat.shiftRight_one]; omega
  have heven : 2 * i % 2 ≠ 1 := by omega
  simp only [slotCode, hbyte, if_neg heven]

theorem slotCode_odd (vtm : List Byte) (i : Nat) : slotCode vtm (2 * i + 1) = vtm[i]?.map highNibble := by
  have hbyte : (2 * i + 1) >>> 1 = i := by rw [Nat.shiftRight_one]; omega
  have hodd : (2 * i + 1) % 2 = 1 := by omega
  simp only [slotCode, hbyte, if_pos hodd]

/-- Inside its domain `LOOKUP(SLN)` is the code of slot `SLN` of the selected table. -/
theorem lookup_eq_slotCode {c : Cfg} {r : Session} (hlow : 0 ≤ r.sln.toInt)
    (hhigh : r.sln.toInt < ((c.profile r.std).total : Int)) :
    r.lookup c = slotCode (c.profile r.std).vtm r.sln.toNat := if_pos ⟨hlow, hhigh⟩

/-- Settles O21, by the parity of `SLN`. -/
theorem lookupReadsTheNibble : Obligations.LookupReadsTheNibble := by
  intro c r i b hlow hhigh hb
  rw [lookup_eq_slotCode hlow hhigh]
  refine ⟨fun heven => ?_, fun hodd => ?_⟩
  · rw [heven, slotCode_even, hb]
    rfl
  · rw [hodd, slotCode_odd, hb]
    rfl

/-! ### Reserved line-type codes (R70, R99) -/

theorem decodeLine_reserved {code : Nibble} (h : 7 ≤ code.toNat) : decodeLine code = none := by
  unfold decodeLine
  split
  case h_8 => rfl
  all_goals omega

theorem feederEnabled_of_pend {s : State} {b : Nat} {pend : List Nat} (hirq : s.irqEn = true) (hs : s.fault = none)
    (hp : s.pend = b :: pend) : s.feederEnabled = true := by
  simp [State.feederEnabled, hirq, hs, hp]

theorem fetch_eq_reserved {s : State} {r : Session} {b : Nat} {pend : List Nat} {code : Nibble}
    (he : s.feederEnabled = true) (hr : s.session = some r) (hp : s.pend = b :: pend)
    (hc : r.lookup s.cfg = some code) (hi : decodeLine code = none) :
    s.fetch = .reserved (.illegalLineType r.sln code) := by
  simp [State.fetch, he, hr, hp, hc, hi]

theorem feederStep_of_reserved {s : State} {q : FaultReason} (h : s.fetch = .reserved q) :
    s.feederStep = .next (s.raise q) := by rw [State.feederStep, h]

/-- Settles O22: the feeder is enabled and finds a code that decodes to nothing. -/
theorem reservedCodesRaiseAFault : Obligations.ReservedCodesRaiseAFault := by
  intro s rest r b pend code hagenda hirq hs hp hr hcode hreserved
  rw [step_of_feeder (nextTurn_cons hagenda)]
  exact feederStep_of_reserved
    (fetch_eq_reserved (feederEnabled_of_pend hirq hs hp) hr hp hcode (decodeLine_reserved hreserved))

/-! ### The printed line programs (R78, R96, R97) -/

/-- Packing undoes reading the slots: a table is determined by its slots. -/
theorem packSlots_slotCodes (vtm : List Byte) : packSlots (slotCodes vtm) = vtm := by
  induction vtm with
  | nil => rfl
  | cons b vtm ih =>
    change packNibbles (lowNibble b) (highNibble b) :: packSlots (slotCodes vtm) = b :: vtm
    rw [packNibbles_nibbles, ih]

theorem mapM_lineCode_of_map {program : List Instr} {codes : List Nibble}
    (h : program.map lineCode = codes.map some) : program.mapM lineCode = some codes := by
  induction program generalizing codes with
  | nil => simpa using h
  | cons i program ih =>
    obtain ⟨code, codes, rfl, hcode, hcodes⟩ := List.map_eq_cons_iff.mp h.symm
    simp [← hcode, ih hcodes.symm]

/-- A table whose slots are a program's codes and one padding `EOF` is what the assembler makes of the program. -/
theorem assemble_of_slotCodes {program : List Instr} {codes : List Nibble} {vtm : List Byte}
    (hcodes : program.map lineCode = codes.map some) (hslots : slotCodes vtm = codes ++ [6#4]) :
    assemble program = some vtm := by
  have hodd : codes.length % 2 = 1 := by
    have hlength := congrArg List.length hslots
    rw [slotCodes_length, List.length_append, List.length_singleton] at hlength
    omega
  have hpacked : packSlots codes = vtm :=
    calc packSlots codes = packSlots (slotCodes (packSlots codes)) := (packSlots_slotCodes _).symm
      _ = packSlots (slotCodes vtm) := by rw [slotCodes_packSlots, if_pos hodd, hslots]
      _ = vtm := packSlots_slotCodes vtm
  rw [assemble, mapM_lineCode_of_map hcodes, Option.map_some, hpacked]

theorem lineCode_act : lineCode .act = some 5#4 := rfl

/-- A program whose codes are the slots of a two-field table up to its `EOF` assembles to that table. -/
theorem TwoFieldTable.assembled {p : Profile} {top mid bottom : List Nibble} (h : TwoFieldTable p top mid bottom)
    {program : List Instr}
    (hcodes : program.map lineCode = (twoFields p.fbh top mid bottom ++ [6#4]).map some) :
    assemble program = some p.vtm :=
  assemble_of_slotCodes hcodes (by rw [h.codes, List.append_assoc, List.singleton_append])

theorem TwoFieldTable.vtm_length {p : Profile} {top mid bottom : List Nibble} (h : TwoFieldTable p top mid bottom) :
    p.vtm.length = p.vtmlen := by
  obtain ⟨⟨hlength, -⟩, -⟩ := by simpa only [Profile.w4, Bool.and_eq_true, decide_eq_true_eq] using h.w4
  exact hlength

/-- Settles O40: the codes of each printed program are the slots of its two-field table. The rows are made opaque before
the two lists are compared: only the slots around them need to be computed. -/
theorem defaultTablesAreThePrintedPrograms : Obligations.DefaultTablesAreThePrintedPrograms := by
  refine ⟨ntscProfile_twoFieldTable.assembled ?_, ntscProfile_twoFieldTable.vtm_length,
    palProfile_twoFieldTable.assembled ?_, palProfile_twoFieldTable.vtm_length⟩
  · change _ = (twoFields 220 _ _ _ ++ [6#4]).map some
    simp only [twoFields, List.map_append, List.map_replicate, List.append_assoc, lineCode_act]
    generalize List.replicate 220 (some 5#4) = rows
    rfl
  · change _ = (twoFields 264 _ _ _ ++ [6#4]).map some
    simp only [twoFields, List.map_append, List.map_replicate, List.append_assoc, lineCode_act]
    generalize List.replicate 264 (some 5#4) = rows
    rfl

end Sys2Proof.Machine
end

section
namespace Sys2Proof.Machine

open Sys2Proof

/-! ### A line from its first sample to its last (R85, R100, R113) -/

@[simp] theorem segmentLevels_length (segs : List (Nat × Nibble)) :
    (segmentLevels segs).length = (segs.map Prod.fst).sum := by
  simp [segmentLevels, List.length_flatMap]

/-- W3 as the room each line has for its segments. -/
theorem w3_iff (p : Profile) :
    p.w3 = true ↔
      (2 * p.short + p.long ≤ p.l ∧ 2 * p.long + p.gapLs ≤ p.l ∧ p.normal + p.gapBk + p.burstBk ≤ p.l ∧
        p.hdr + p.fbw2 ≤ p.l) ∧
      (p.useSerr = true → p.short + p.long + p.serr ≤ p.l ∧ p.serr + p.normal + p.short ≤ p.l) ∧
      (p.useSerr = false → p.short + 2 * p.long ≤ p.l ∧ p.long + 2 * p.short ≤ p.l) := by
  cases hserr : p.useSerr <;> simp [Profile.w3, hserr]

/-- Four segments, the last of which fills what the first three leave of a line. -/
theorem segmentLevels_length_rest {q₁ q₂ q₃ k l : Nat} {lv₁ lv₂ lv₃ lv₄ : Nibble} (hk : q₁ + q₂ + q₃ = k)
    (hfit : k ≤ l) :
    (segmentLevels [(q₁, lv₁), (q₂, lv₂), (q₃, lv₃), (l - k, lv₄)]).length = l := by
  simp only [segmentLevels_length, List.map_cons, List.map_nil, List.sum_cons, List.sum_nil]
  omega

theorem Session.Stores.w1 {c : Cfg} {r : Session} (h : r.Stores c) : (c.profile r.std).w1 = true := by
  obtain ⟨hw1, -⟩ := (violation_eq_none_iff _ _).mp h.wellFormed
  exact hw1

theorem Session.Stores.w3 {c : Cfg} {r : Session} (h : r.Stores c) : (c.profile r.std).w3 = true := by
  obtain ⟨-, -, hw3, -⟩ := (violation_eq_none_iff _ _).mp h.wellFormed
  exact hw3

section Refilling
variable {s : State} {r : Session}

theorem State.Refilling.buf_lt (h : s.Refilling r) : r.buf < r.tx.length := by
  rw [h.stores.txCount]
  exact h.bufIn

/-- Another framebuffer of the same shape changes nothing a line instruction needs (R100). -/
theorem State.Refilling.withFb (h : s.Refilling r) {fb : List Host.Cell}
    (hstores : Session.Stores s.cfg { r with fb := fb }) :
    (s.withSession { r with fb := fb }).Refilling { r with fb := fb } := ⟨rfl, hstores, h.bufIn, h.atStart⟩

/-- As many level codes as the line has samples replace the whole buffer by their waveform. -/
theorem State.Refilling.emits_eq_afterLine (h : s.Refilling r) {levels : List Nibble}
    (hlen : levels.length = (s.cfg.profile r.std).l) : r.emits s.cfg levels = some (r.afterLine s.cfg levels) := by
  have hbuf := h.buf_lt
  have hold : r.tx[r.buf].length = levels.length := by rw [hlen, h.stores.txLength _ (List.getElem_mem hbuf)]
  have hwave : overwrite r.tx[r.buf] 0 (Cfg.waveform s.cfg r.cur levels) = Cfg.waveform s.cfg r.cur levels :=
    overwrite_all _ _ (by rw [waveform_length, hold])
  rw [emits_eq h.stores.curIn h.bufIn (by rw [h.atStart, hlen, Nat.zero_add]), h.atStart,
    List.modify_eq_set_get _ hbuf, List.get_eq_getElem, hwave, Nat.zero_add]
  rfl

/-- A segment list that fills the line (R8, R113). -/
theorem State.Refilling.fills_eq_afterLine (h : s.Refilling r) {segs : List (Nat × Nibble)}
    (hlen : (segmentLevels segs).length = (s.cfg.profile r.std).l) :
    r.fills s.cfg segs = some (r.afterLine s.cfg (segmentLevels segs)) := by
  rw [fills_eq_emits, h.emits_eq_afterLine hlen]

/-- A line with a segment list of its own for a standard that serrates (R104, R105). -/
theorem State.Refilling.fills_ite_eq_afterLine (h : s.Refilling r) {serr : Bool} {segs segs' : List (Nat × Nibble)}
    (hlen : serr = true → (segmentLevels segs).length = (s.cfg.profile r.std).l)
    (hlen' : serr = false → (segmentLevels segs').length = (s.cfg.profile r.std).l) :
    (if serr then segmentLevels segs else segmentLevels segs').length = (s.cfg.profile r.std).l ∧
      (if serr then r.fills s.cfg segs else r.fills s.cfg segs') =
        some (r.afterLine s.cfg (if serr then segmentLevels segs else segmentLevels segs')) := by
  cases serr with
  | true => exact ⟨hlen rfl, h.fills_eq_afterLine (hlen rfl)⟩
  | false => exact ⟨hlen' rfl, h.fills_eq_afterLine (hlen' rfl)⟩

end Refilling

/-! ### The lines of a segment list alone (R101 to R105, R110) -/

/-- Settles O25: each segment list has the length of the line by W3. -/
theorem syncLinesFillTheBuffer : Obligations.SyncLinesFillTheBuffer := by
  intro s r h c p ssLevels lsLevels s2lLevels l2sLevels
  obtain ⟨⟨hssFit, hlsFit, -, -⟩, hserrFit, hplainFit⟩ := (w3_iff p).mp h.stores.w3
  have hss : ssLevels.length = p.l := segmentLevels_length_rest (by omega) hssFit
  have hls : lsLevels.length = p.l := segmentLevels_length_rest (by omega) hlsFit
  have hexecSs : exec .ss s = .next (s.withSession { r.afterLine c ssLevels with pixline := 0#16 }) :=
    runLine_eq h.isReady (congrArg (Option.map _) (h.fills_eq_afterLine hss))
  have hexecLs : exec .ls s = .next (s.withSession (r.afterLine c lsLevels)) :=
    runLine_eq h.isReady (h.fills_eq_afterLine hls)
  obtain ⟨hs2l, hgenS2l⟩ : s2lLevels.length = p.l ∧ Session.genS2l c r = some (r.afterLine c s2lLevels) :=
    h.fills_ite_eq_afterLine (fun hserr => segmentLevels_length_rest (by omega) (hserrFit hserr).1)
      (fun hserr => segmentLevels_length_rest (by omega) (hplainFit hserr).1)
  obtain ⟨hl2s, hgenL2s⟩ : l2sLevels.length = p.l ∧ Session.genL2s c r = some (r.afterLine c l2sLevels) :=
    h.fills_ite_eq_afterLine (fun hserr => segmentLevels_length_rest (by omega) (hserrFit hserr).2)
      (fun hserr => segmentLevels_length_rest (by omega) (hplainFit hserr).2)
  exact ⟨⟨hss, hls, hs2l, hl2s⟩, hexecSs, hexecLs, runLine_eq h.isReady hgenS2l, runLine_eq h.isReady hgenL2s⟩

/-- The final fill of `BK` is gray on the first line of a field where the profile asks for it (R103). -/
theorem bkLevel_cases (c : Cfg) (p : Profile) (pixline : BitVec 16) :
    bkLevel c p pixline = c.gray ∧ p.grayTop = true ∧ pixline = 0#16 ∨
      bkLevel c p pixline = c.black ∧ ¬(p.grayTop = true ∧ pixline = 0#16) := by
  have hzero : pixline.toNat < 1 ↔ pixline = 0#16 := by
    rw [Nat.lt_one_iff, ← BitVec.toNat_inj, BitVec.toNat_ofNat, Nat.zero_mod]
  by_cases htop : p.grayTop = true ∧ pixline = 0#16
  · exact .inl ⟨if_pos (by rwa [hzero]), htop⟩
  · exact .inr ⟨if_neg (by rwa [hzero]), htop⟩

/-- Settles O26: the segment list fills the line by W3, whatever the level of its last segment. -/
theorem blackLineIsGrayOnlyAtTheTop : Obligations.BlackLineIsGrayOnlyAtTheTop := by
  intro s r h c p
  obtain ⟨⟨-, -, hfit, -⟩, -⟩ := (w3_iff p).mp h.stores.w3
  have hlen : (segmentLevels [(p.normal, c.sync), (p.gapBk, c.black), (p.burstBk, c.colourburst),
      (p.rest (p.normal + p.gapBk + p.burstBk), bkLevel c p r.pixline)]).length = p.l :=
    segmentLevels_length_rest rfl hfit
  exact ⟨bkLevel c p r.pixline, bkLevel_cases c p r.pixline, _, rfl, hlen,
    runLine_eq h.isReady (h.fills_eq_afterLine hlen)⟩

/-- Settles O27: the line is that of `SS` but for the level of its last segment. -/
theorem eofClosesTheFrame : Obligations.EofClosesTheFrame := by
  intro s r h c p
  obtain ⟨⟨hfit, -⟩, -⟩ := (w3_iff p).mp h.stores.w3
  have hlen : (segmentLevels [(p.short, c.sync), (p.long, c.black), (p.short, c.sync),
      (p.rest (2 * p.short + p.long), eofLevel c p)]).length = p.l := segmentLevels_length_rest (by omega) hfit
  exact ⟨_, rfl, hlen, -1#16, by decide, r.frame + 1#32, BitVec.toNat_add ..,
    runLine_eq h.isReady (congrArg (Option.map _) (h.fills_eq_afterLine hlen))⟩

end Sys2Proof.Machine
end

section
namespace Sys2Proof.Machine

open Sys2Proof

/-! ### A row outside the half (R109, R171) -/

section Row
variable {s : State} {r : Session}

theorem execAct_of_rowOutside (hr : s.session = some r) (hrow : (s.cfg.profile r.std).fbh ≤ r.pixline.toNat) :
    exec .act s = .next (s.raise (.rowOutOfRange r.pixline)) := by
  have houtside : r.rowOutside s.cfg = true := decide_eq_true hrow
  simp only [exec, execAct, hr, if_pos houtside]

theorem execAct_of_rowInside (hr : s.session = some r) (hrow : r.pixline.toNat < (s.cfg.profile r.std).fbh) :
    exec .act s = s.runLine (Session.genAct s.cfg) := by
  have hinside : ¬ r.rowOutside s.cfg = true := by simpa [Session.rowOutside] using hrow
  simp only [exec, execAct, hr, if_neg hinside]

end Row

/-- A feeder step whose line instruction raises a fault writes nothing but the fault (R171). -/
theorem feederStep_of_raise {s : State} {i : Instr} {b : Nat} {q : FaultReason} (hf : s.fetch = .line i b)
    (hexec : exec i (s.enterFeeder b) = .next ((s.enterFeeder b).raise q)) : s.feederStep = .next (s.raise q) := by
  rw [State.feederStep, hf]
  simp only [hexec, State.finishFeeder, raise_fault]

/-- Settles O23: the entry of the interrupt changes neither `PIXLINE` nor the profile, so `ACT` raises the same fault
there. -/
theorem rowOutOfRangeRaisesAFault : Obligations.RowOutOfRangeRaisesAFault := by
  refine ⟨fun s r hr hrow => execAct_of_rowOutside hr hrow, ?_⟩
  intro s rest r b pend hagenda hirq hs hp hr hcode hrow
  rw [step_of_feeder (nextTurn_cons hagenda)]
  refine feederStep_of_raise (fetch_eq_line (feederEnabled_of_pend hirq hs hp) hr hp hcode rfl) ?_
  refine execAct_of_rowOutside (r := { r with buf := b, wp := 0 }) ?_ hrow
  rw [enterFeeder_session, hr, Option.map_some]

end Sys2Proof.Machine
end

section
namespace Sys2Proof.Machine

open Sys2Proof

/-! ### The pixels of a row (R74, R76, R107) -/

theorem mapM_eq_some_iff_map {α β : Type} {f : α → Option β} {xs : List α} {ys : List β} :
    xs.mapM f = some ys ↔ xs.map f = ys.map some := by
  induction xs generalizing ys with
  | nil => cases ys <;> simp
  | cons x xs ih => cases ys <;> simp [List.mapM_cons, Option.bind_eq_some_iff, ih]

section RowLevels
variable {p : Profile} {fb : List Host.Cell} {h y j k : Nat} {row : List Nibble}

/-- The level codes of a row are those of its pixels, place by place. -/
theorem rowLevels_eq_some_iff :
    rowLevels p fb h y = some row ↔ row.length = p.fbw2 ∧ ∀ x < p.fbw2, sdPixel p fb h x y = row[x]? := by
  rw [rowLevels, mapM_eq_some_iff_map]
  constructor
  · intro hmap
    have hlen : row.length = p.fbw2 := by simpa using (congrArg List.length hmap).symm
    refine ⟨hlen, fun x hx => ?_⟩
    have hx' : x < row.length := by omega
    simpa [hx, hx'] using congrArg (fun zs => zs[x]?) hmap
  · rintro ⟨hlen, hget⟩
    refine List.ext_getElem (by simp [hlen]) fun x hx hx' => ?_
    simp only [List.length_map, List.length_range] at hx hx'
    simpa [hx'] using hget x hx

theorem sdPixel_even (p : Profile) (fb : List Host.Cell) (h y j : Nat) :
    sdPixel p fb h (2 * j) y = (Memory.read fb (rowByte p h y j)).map lowNibble := by
  have hbyte : 2 * j / 2 = j := by omega
  have heven : 2 * j % 2 = 0 := by omega
  simp only [sdPixel, hbyte, if_pos heven]

theorem sdPixel_odd (p : Profile) (fb : List Host.Cell) (h y j : Nat) :
    sdPixel p fb h (2 * j + 1) y = (Memory.read fb (rowByte p h y j)).map highNibble := by
  have hbyte : (2 * j + 1) / 2 = j := by omega
  have hodd : ¬ (2 * j + 1) % 2 = 0 := by omega
  simp only [sdPixel, hbyte, if_neg hodd]

/-- Two neighbouring pixels make the byte they share. -/
theorem read_of_sdPixels {low high : Nibble} (heven : sdPixel p fb h (2 * j) y = some low)
    (hodd : sdPixel p fb h (2 * j + 1) y = some high) :
    Memory.read fb (rowByte p h y j) = some (packNibbles low high) := by
  rw [sdPixel_even] at heven
  rw [sdPixel_odd] at hodd
  obtain ⟨b, hb, rfl⟩ := Option.map_eq_some_iff.mp heven
  obtain ⟨b', hb', rfl⟩ := Option.map_eq_some_iff.mp hodd
  cases hb.symm.trans hb'
  rw [hb, packNibbles_nibbles]

/-- A read unit holds four pixels: the low byte's before the high byte's, a low nibble before a high one (R40, R76). -/
theorem unitCodes_append (hi lo : Byte) :
    unitCodes (hi ++ lo) = [lowNibble lo, highNibble lo, lowNibble hi, highNibble hi] := by
  have hlowLow : (hi ++ lo).extractLsb' 0 4 = lowNibble lo := BitVec.extractLsb'_append_eq_of_add_le (by decide)
  have hlowHigh : (hi ++ lo).extractLsb' 4 4 = highNibble lo := BitVec.extractLsb'_append_eq_of_add_le (by decide)
  have hhighLow : (hi ++ lo).extractLsb' 8 4 = lowNibble hi := BitVec.extractLsb'_append_eq_of_le (by decide)
  have hhighHigh : (hi ++ lo).extractLsb' 12 4 = highNibble hi := BitVec.extractLsb'_append_eq_of_le (by decide)
  rw [unitCodes, ← hlowLow, ← hlowHigh, ← hhighLow, ← hhighHigh]

/-- Four neighbouring pixels make the read unit they share, which `ACT` emits in their order. -/
theorem readUnit_of_sdPixels {a b d e : Nibble} (h₀ : sdPixel p fb h (4 * k) y = some a)
    (h₁ : sdPixel p fb h (4 * k + 1) y = some b) (h₂ : sdPixel p fb h (4 * k + 2) y = some d)
    (h₃ : sdPixel p fb h (4 * k + 3) y = some e) :
    ∃ u, Memory.readUnit fb (rowByte p h y (2 * k)) = some u ∧ unitCodes u = [a, b, d, e] := by
  rw [show 4 * k = 2 * (2 * k) by omega] at h₀ h₁
  rw [show 4 * k + 2 = 2 * (2 * k + 1) by omega] at h₂
  rw [show 4 * k + 3 = 2 * (2 * k + 1) + 1 by omega] at h₃
  have hlow : Memory.read fb (rowByte p h y (2 * k)) = some (packNibbles a b) := read_of_sdPixels h₀ h₁
  have hhigh : Memory.read fb (rowByte p h y (2 * k) + 1) = some (packNibbles d e) := read_of_sdPixels h₂ h₃
  refine ⟨packNibbles d e ++ packNibbles a b, by simp only [Memory.readUnit, hlow, hhigh], ?_⟩
  simp only [unitCodes_append, lowNibble_packNibbles, highNibble_packNibbles]

theorem emits_fb {c : Cfg} {levels : List Nibble} {r r' : Session} (hr : r.emits c levels = some r') : r'.fb = r.fb := by
  obtain ⟨hframe, -, -⟩ := emits_some hr
  rw [hframe]

/-- The active portion emits the level codes of the row it reads, from any of its read units on (R106, R108). -/
theorem row_eq_emits {c : Cfg} {r : Session} {units : Nat} {levels : List Nibble} (hlen : levels.length = 4 * units)
    (hpix : ∀ x < 4 * units, sdPixel p r.fb h (4 * k + x) y = levels[x]?) :
    Session.row c units (rowByte p h y (2 * k)) r = r.emits c levels := by
  induction units generalizing k r levels with
  | zero =>
    obtain rfl := List.length_eq_zero_iff.mp hlen
    rfl
  | succ units ih =>
    match levels, hlen with
    | a :: b :: d :: e :: rest, hlen =>
      obtain ⟨u, hunit, hcodes⟩ := readUnit_of_sdPixels (hpix 0 (by omega)) (hpix 1 (by omega)) (hpix 2 (by omega))
        (hpix 3 (by omega))
      have hrest : ∀ r' : Session, r'.fb = r.fb →
          Session.row c units (rowByte p h y (2 * k) + 2) r' = r'.emits c rest := by
        intro r' hfb
        refine ih (k := k + 1) (by simp only [List.length_cons] at hlen; omega) fun x hx => ?_
        rw [hfb, show 4 * (k + 1) + x = 4 * k + (x + 4) by omega]
        exact hpix (x + 4) (by omega)
      have hemits : r.emits c (a :: b :: d :: e :: rest) = (r.emits c [a, b, d, e]).bind (Session.emits c rest) :=
        emits_append c [a, b, d, e] rest r
      simp only [Session.row, hunit, hcodes, hemits]
      exact Option.bind_congr fun r' hr' => hrest r' (emits_fb hr')

end RowLevels

section Halves
variable {c : Cfg} {r : Session} {p : Profile} {fb fb' : List Host.Cell} {h x y a : Nat}

/-- Every byte of the framebuffer can be read (R22). -/
theorem Session.Stores.read_isSome (hstores : r.Stores c) (ha : a < (c.profile r.std).fbsize) :
    (Memory.read r.fb a).isSome := by
  rw [memory_read_isSome_iff, hstores.fbCells]
  exact List.mem_range.mpr ha

theorem lt_fbsize_of_inHalf (hh : h < 2) (ha : inHalf p h a) : a < p.fbsize := by
  obtain ⟨-, hhigh⟩ := ha
  have hlast : (h + 1) * p.half ≤ 2 * p.half := Nat.mul_le_mul_right _ hh
  rw [Nat.succ_mul] at hlast
  exact hhigh.trans_le hlast

theorem inHalf_pixel (hw1 : p.w1 = true) (hx : x < p.fbw2) (hy : y < p.fbh) : inHalf p h (rowByte p h y (x / 2)) := by
  obtain ⟨-, hwidth⟩ := fbw_eq_stride hw1
  exact inHalf_rowByte hy (by omega)

/-- With good stores every row of either half has its pixels. -/
theorem Session.Stores.exists_rowLevels (hstores : r.Stores c) (hh : h < 2) (hy : y < (c.profile r.std).fbh) :
    ∃ row, rowLevels (c.profile r.std) r.fb h y = some row := by
  have hpixel : ∀ x < (c.profile r.std).fbw2, (sdPixel (c.profile r.std) r.fb h x y).isSome := fun x hx => by
    rw [sdPixel, Option.isSome_map]
    exact hstores.read_isSome (lt_fbsize_of_inHalf hh (inHalf_pixel hstores.w1 hx hy))
  refine ⟨List.ofFn fun x : Fin (c.profile r.std).fbw2 => (sdPixel _ r.fb h x y).get (hpixel x x.isLt),
    rowLevels_eq_some_iff.mpr ⟨List.length_ofFn, fun x hx => ?_⟩⟩
  simp [hx]

/-- A row has no pixel outside its half (R47). -/
theorem rowLevels_of_agree {row : List Nibble} (hw1 : p.w1 = true) (hy : y < p.fbh)
    (hagree : ∀ a, inHalf p h a → Memory.read fb' a = Memory.read fb a) (hrow : rowLevels p fb h y = some row) :
    rowLevels p fb' h y = some row := by
  obtain ⟨hlen, hpix⟩ := rowLevels_eq_some_iff.mp hrow
  refine rowLevels_eq_some_iff.mpr ⟨hlen, fun x hx => ?_⟩
  rw [← hpix x hx, sdPixel, hagree _ (inHalf_pixel hw1 hx hy), sdPixel]

theorem frontHalf_toNat (frame : BitVec 32) : (frontHalf frame).toNat = frame.toNat % 2 := by
  simp only [frontHalf, BitVec.extractLsb'_toNat, Nat.shiftRight_zero, Nat.pow_one]

end Halves

/-! ### The active line (R106, R107, R108) -/

/-- The level codes of an `ACT` line that shows `row`: header, active portion, back porch. -/
def actLevels (c : Cfg) (p : Profile) (row : List Nibble) : List Nibble :=
  segmentLevels [(p.normal, c.sync), (p.gapAct, c.black), (p.burst, c.colourburst), (p.blankAct, c.black)] ++ row ++
    List.replicate (p.rest (p.hdr + p.fbw2)) c.black

/-- What `ACT` does to the session when it shows `row`. -/
def Session.afterAct (c : Cfg) (r : Session) (row : List Nibble) : Session :=
  { r.afterLine c (actLevels c (c.profile r.std) row) with pixline := r.pixline + 1#16 }

section ActLevels
variable {c : Cfg} {p : Profile} {row : List Nibble}

theorem actHeader_length (c : Cfg) (p : Profile) :
    (segmentLevels [(p.normal, c.sync), (p.gapAct, c.black), (p.burst, c.colourburst), (p.blankAct, c.black)]).length =
      p.hdr := by
  simp only [segmentLevels_length, List.map_cons, List.map_nil, List.sum_cons, List.sum_nil, Profile.hdr]
  omega

theorem actLevels_length (hw3 : p.w3 = true) (hrow : row.length = p.fbw2) : (actLevels c p row).length = p.l := by
  obtain ⟨⟨-, -, -, hfit⟩, -⟩ := (w3_iff p).mp hw3
  simp only [actLevels, List.length_append, actHeader_length, hrow, List.length_replicate, Profile.rest]
  omega

/-- Pixel `x` stands at line offset `HDR + x` (R106). -/
theorem actLevels_getElem? {x : Nat} (hx : x < row.length) : (actLevels c p row)[p.hdr + x]? = row[x]? := by
  rw [actLevels, List.append_assoc, List.getElem?_append_right (by rw [actHeader_length]; omega), actHeader_length,
    Nat.add_sub_cancel_left, List.getElem?_append_left hx]

end ActLevels

/-- The active portion is a whole number of read units (W1, R108). -/
theorem fbw2_eq_units {p : Profile} (hw1 : p.w1 = true) : p.fbw2 = 4 * (p.stride / 2) := by
  obtain ⟨-, hmod⟩ := of_decide_eq_true hw1
  simp only [Profile.fbw2, Profile.stride]
  omega

/-- The generator of `ACT` emits the whole line, header, row and back porch, as one list of codes. -/
theorem genAct_eq_emits {c : Cfg} {r : Session} {row : List Nibble} (hw1 : (c.profile r.std).w1 = true)
    (hrow : rowLevels (c.profile r.std) r.fb (frontHalf r.frame).toNat r.pixline.toNat = some row) :
    Session.genAct c r = (r.emits c (actLevels c (c.profile r.std) row)).map
      fun r' => { r' with pixline := r'.pixline + 1#16 } := by
  obtain ⟨hlen, hpix⟩ := rowLevels_eq_some_iff.mp hrow
  rw [fbw2_eq_units hw1] at hlen hpix
  have hactive : ∀ r₁ : Session, r₁.fb = r.fb →
      Session.row c ((c.profile r.std).stride / 2) (rowAddress (c.profile r.std) r) r₁ = r₁.emits c row := by
    intro r₁ hfb
    exact row_eq_emits (k := 0) hlen fun x hx => by rw [hfb, Nat.mul_zero, Nat.zero_add]; exact hpix x hx
  simp only [Session.genAct, actLevels, fills_eq_emits, fill_eq_emits, emits_append]
  rw [Option.bind_congr fun r₁ hr₁ => hactive r₁ (emits_fb hr₁)]

section Act
variable {s : State} {r : Session} {row : List Nibble}

theorem execAct_eq_afterAct (h : s.Refilling r) (hin : r.pixline.toNat < (s.cfg.profile r.std).fbh)
    (hrow : rowLevels (s.cfg.profile r.std) r.fb (frontHalf r.frame).toNat r.pixline.toNat = some row) :
    exec .act s = .next (s.withSession (r.afterAct s.cfg row)) := by
  obtain ⟨hlen, -⟩ := rowLevels_eq_some_iff.mp hrow
  rw [execAct_of_rowInside h.isReady hin]
  refine runLine_eq h.isReady ?_
  rw [genAct_eq_emits h.stores.w1 hrow, h.emits_eq_afterLine (actLevels_length h.stores.w3 hlen)]
  rfl

/-- The row `ACT` shows exists. -/
theorem State.Refilling.exists_shownRow (h : s.Refilling r) (hin : r.pixline.toNat < (s.cfg.profile r.std).fbh) :
    ∃ row, rowLevels (s.cfg.profile r.std) r.fb (frontHalf r.frame).toNat r.pixline.toNat = some row :=
  h.stores.exists_rowLevels (frontHalf r.frame).isLt hin

end Act

/-- Settles O28: the row exists because `FRAME[0]` names a half and `PIXLINE` a row of it. -/
theorem activeLineShowsTheRow : Obligations.ActiveLineShowsTheRow := by
  intro s r h hin c p
  obtain ⟨row, hrow⟩ := h.exists_shownRow hin
  obtain ⟨hlen, -⟩ := rowLevels_eq_some_iff.mp hrow
  exact ⟨row, actLevels c p row, by rw [← frontHalf_toNat]; exact hrow, hlen, rfl, actLevels_length h.stores.w3 hlen,
    execAct_eq_afterAct h hin hrow⟩

/-- Settles O29: both framebuffers have the same row to show, and `ACT` reads nothing else of them. -/
theorem activeLineIgnoresTheBackHalf : Obligations.ActiveLineIgnoresTheBackHalf := by
  intro s r fb' h hstores' hin hagree
  obtain ⟨row, hrow⟩ := h.exists_shownRow hin
  have hrow' := rowLevels_of_agree h.stores.w1 hin hagree hrow
  exact ⟨r.afterAct s.cfg row, execAct_eq_afterAct h hin hrow, rfl, execAct_eq_afterAct (h.withFb hstores') hin hrow'⟩

/-! ### From the pixel to the line (R107, R108, R137) -/

theorem lowNibble_eq_ofNat (b : Byte) : lowNibble b = BitVec.ofNat 4 b.toNat := rfl

theorem packNibbles_getLsbD (low high : Nibble) (i : Nat) :
    (packNibbles low high).getLsbD i = if i < 4 then low.getLsbD i else high.getLsbD (i - 4) := by
  rw [packNibbles, BitVec.getLsbD_append]

/-- The single-density merge replaces the pixel's nibble and keeps its neighbour's (R137). -/
theorem sdMerge_eq_packNibbles (x : Coord) (c : Nibble) (b : Byte) :
    sdMerge x c b = if x.toNat % 2 = 0 then packNibbles c (highNibble b) else packNibbles (lowNibble b) c := by
  have heven : (b &&& 0xF0#8) ||| c.setWidth 8 = packNibbles c (highNibble b) := by
    apply BitVec.eq_of_getLsbD_eq
    intro i hi
    rw [packNibbles_getLsbD]
    interval_cases i <;> simp [highNibble]
  have hodd : (b &&& 0x0F#8) ||| (c.setWidth 8 <<< 4) = packNibbles (lowNibble b) c := by
    apply BitVec.eq_of_getLsbD_eq
    intro i hi
    rw [packNibbles_getLsbD]
    interval_cases i <;> simp [lowNibble]
  rw [sdMerge, heven, hodd]

theorem sdAddress_eq_rowByte (p : Profile) (h : Nat) (x y : Coord) :
    sdAddress p h x y = rowByte p h y.toNat (x.toNat / 2) := by rw [sdAddress, Nat.shiftRight_one]

/-- A pixel reads back the code written to it (R74, R137). -/
theorem sdPixel_put_sdMerge {p : Profile} {fb : List Host.Cell} {h : Nat} {x y : Coord} {b : Byte} (c : Nibble)
    (hb : Memory.read fb (sdAddress p h x y) = some b) :
    sdPixel p (Memory.put fb (sdAddress p h x y) (sdMerge x c b)) h x.toNat y.toNat = some c := by
  have hread := memory_read_put_same fb (sdAddress p h x y) (sdMerge x c b) (by rw [hb]; rfl)
  rw [sdPixel, ← sdAddress_eq_rowByte, hread, Option.map_some, sdMerge_eq_packNibbles]
  split
  next => rw [lowNibble_packNibbles]
  next => rw [highNibble_packNibbles]

section Drawn
variable {s : State} {r : Session} {x y : Coord}

/-- A single-density write in range completes, and its pixel reads back its code. -/
theorem execPixsd_of_inRange (hr : s.session = some r) (hstores : r.Stores s.cfg) (c : Nibble)
    (hin : inRange (s.cfg.profile r.std) (s.cfg.profile r.std).fbw2 x y = true) :
    ∃ fb, exec (.pixsd x y c) s = .next (s.withSession { r with fb := fb }) ∧
      fb.map Prod.fst = r.fb.map Prod.fst ∧
      sdPixel (s.cfg.profile r.std) fb r.wsel.toNat x.toNat y.toNat = some c := by
  obtain ⟨b, hb⟩ := Option.isSome_iff_exists.mp
    (hstores.read_isSome (lt_fbsize_of_inHalf r.wsel.isLt (inHalf_sdAddress hstores.w1 hin)))
  refine ⟨_, ?_, memory_put_addresses .., sdPixel_put_sdMerge c hb⟩
  simp only [exec, execPixsd, whenReady_ready _ hr, State.writeSd, if_pos hin]
  exact editFb_eq _ hb

/-- The shown buffer has at line offset `HDR + x` the sample of the row's pixel `x`. -/
theorem afterAct_shown {c : Cfg} {row : List Nibble} {x : Nat} {lv : Nibble} (hbuf : r.buf < r.tx.length)
    (hpix : row[x]? = some lv) :
    ∃ shown, (r.afterAct c row).tx[r.buf]? = some shown ∧
      shown[(c.profile r.std).hdr + x]? = some (Cfg.sampleAt c (r.cur + (c.profile r.std).hdr + x) lv) := by
  refine ⟨_, List.getElem?_set_self hbuf, ?_⟩
  obtain ⟨hx, -⟩ := List.getElem?_eq_some_iff.mp hpix
  rw [waveform_getElem?, actLevels_getElem? hx, hpix, Option.map_some, Nat.add_assoc]

end Drawn

/-- Settles O36: the byte drawn is one of the row `ACT` shows next. -/
theorem drawnPixelComesOutOfTheLine : Obligations.DrawnPixelComesOutOfTheLine := by
  intro s r x y col h hcol hmax hbase p hin hpixline hwsel
  obtain ⟨fb, hdraw, hcells, hpixel⟩ := execPixsd_of_inRange h.isReady h.stores (lowNibble col) hin
  have hstores' : Session.Stores s.cfg { r with fb := fb } :=
    h.stores.of_shape rfl hcells rfl h.stores.curIn h.stores.txiIn
  have h' := h.withFb hstores'
  obtain ⟨hx, hy⟩ := inRange_toNat_lt hin
  have hrowIn : r.pixline.toNat < p.fbh := by rw [hpixline]; exact hy
  obtain ⟨row, hrow⟩ := h'.exists_shownRow hrowIn
  obtain ⟨-, hpix⟩ := rowLevels_eq_some_iff.mp hrow
  have hshown : row[x.toNat]? = some (lowNibble col) := by
    rw [← hpix x.toNat hx, ← hpixel, hwsel, hpixline]
    rfl
  rw [lowNibble_eq_ofNat] at hshown
  obtain ⟨shown, htx, hsample⟩ := afterAct_shown (c := s.cfg) (r := { r with fb := fb }) h.buf_lt hshown
  exact ⟨_, _, _, shown, (execTack_of_single x y hmax hbase).trans hdraw, execAct_eq_afterAct h' hrowIn hrow, rfl, htx,
    hsample⟩

end Sys2Proof.Machine
end

section
namespace Sys2Proof.Machine

open Sys2Proof

/-! ### The DMA step (R122) -/

section Dma
variable {s : State} {r : Session}

theorem dmaStep_uninit (hs : s.session = none) : s.dmaStep = .next s := by rw [State.dmaStep, hs]

theorem dmaStep_ready {line : List Sample} (hr : s.session = some r) (hline : r.tx[r.txi]? = some line) :
    s.dmaStep = .next { s with
      glitch := glitchAfter s.glitch s.pend r.txi
      out := s.out ++ line
      pend := s.pend ++ [r.txi]
      session := some { r with txi := (r.txi + 1) % s.cfg.n } } := by
  simp only [State.dmaStep, hr, hline]

/-- The buffer the DMA agent transmits next is one of the pool, and has a full line (R23, R26). -/
theorem Session.Stores.exists_txiLine {c : Cfg} (h : r.Stores c) :
    ∃ line, r.tx[r.txi]? = some line ∧ line.length = (c.profile r.std).l := by
  have htxi : r.txi < r.tx.length := by
    rw [h.txCount]
    exact h.txiIn
  exact ⟨r.tx[r.txi], List.getElem?_eq_getElem htxi, h.txLength _ (List.getElem_mem htxi)⟩

theorem glitchAfter_eq_true_iff (glitch : Bool) (pend : List Nat) (b : Nat) :
    glitchAfter glitch pend b = true ↔ glitch = true ∨ b ∈ pend := by simp [glitchAfter]

theorem glitchAfter_eq_false_iff (glitch : Bool) (pend : List Nat) (b : Nat) :
    glitchAfter glitch pend b = false ↔ glitch = false ∧ b ∉ pend := by simp [glitchAfter]

end Dma

/-- Settles O9: the pool has a full line at `TXI`. -/
theorem dmaStepTransmitsOneBuffer : Obligations.DmaStepTransmitsOneBuffer := by
  intro s r hr hstores
  have henabled : s.dmaEnabled = true := by rw [State.dmaEnabled, State.inited, hr, Option.isSome_some]
  obtain ⟨line, hline, hlen⟩ := hstores.exists_txiLine
  exact ⟨henabled, line, hline, hlen, _, glitchAfter_eq_true_iff .., dmaStep_ready hr hline⟩

/-- Settles O57: without a session the DMA step is the identity, and so is the choice of an empty schedule. -/
theorem disabledDmaTurnsPass : Obligations.DisabledDmaTurnsPass := by
  intro s hs
  have hdisabled : s.dmaEnabled = false := by rw [State.dmaEnabled, State.inited, hs, Option.isSome_none]
  refine ⟨hdisabled, fun rest ha => ?_, fun ha he => ?_⟩
  · exact (step_of_dma (nextTurn_cons ha)).trans (dmaStep_uninit hs)
  · exact (step_of_dma (nextTurn_free_idle ha he)).trans (dmaStep_uninit hs)

/-! ### The feeder step around the line instruction (R124, R180) -/

section Feeder
variable {s t : State} {r : Session} {b : Nat} {i : Instr}

theorem feederEnabled_eq_false (h : s.irqEn = false ∨ s.pend = [] ∨ s.fault ≠ none) : s.feederEnabled = false := by
  obtain hirq | hpend | hfault := h
  · simp [State.feederEnabled, hirq]
  · simp [State.feederEnabled, hpend]
  · obtain ⟨q, hq⟩ := Option.ne_none_iff_exists'.mp hfault
    simp [State.feederEnabled, hq]

theorem feederStep_disabled (h : s.feederEnabled = false) : s.feederStep = .next s := by
  simp [State.feederStep, State.fetch, h]

theorem enterFeeder_ready (hr : s.session = some r) (b : Nat) :
    s.enterFeeder b = s.withSession { r with buf := b, wp := 0 } := by
  simp only [State.enterFeeder, hr, Option.map_some, State.withSession]

theorem feederStep_of_line (hf : s.fetch = .line i b) (hr : s.session = some r) :
    s.feederStep = s.finishFeeder (exec i (s.withSession { r with buf := b, wp := 0 })) := by
  rw [State.feederStep, hf, ← enterFeeder_ready hr]

/-- The interrupt returns from a full line that raised no fault (R124, R180). -/
theorem finishFeeder_of_full (hfault : t.fault = none) (hr : t.session = some r)
    (hfull : r.wp = (t.cfg.profile r.std).l) :
    s.finishFeeder (.next t) =
      .next { t with session := some { r with sln := r.sln + 1#16 }, pend := t.pend.tail } := by
  simp only [State.finishFeeder, hfault, State.leaveFeeder, hr, if_pos hfull]

end Feeder

/-- Settles O7: a feeder that is not enabled leaves the state it is given. -/
theorem disabledFeederTurnsPass : Obligations.DisabledFeederTurnsPass := by
  intro s rest ha hdisabled
  rw [step_of_feeder (nextTurn_cons ha)]
  exact feederStep_disabled (feederEnabled_eq_false hdisabled)

/-- Settles O6: the fetch finds the decoded instruction, and the rest is entry and return around `exec`. -/
theorem stepRunsTheFetchedLine : Obligations.StepRunsTheFetchedLine := by
  intro s rest r b pend code i ha hirq hfault hpend hr hcode hi
  have hfetch : State.fetch { s with agenda := rest } = .line i b :=
    fetch_eq_line (feederEnabled_of_pend hirq hfault hpend) hr hpend hcode hi
  have hstep := (step_of_feeder (nextTurn_cons ha)).trans (feederStep_of_line hfetch hr)
  refine ⟨hstep, fun t r' hexec hnofault hr' hfull => ?_⟩
  calc step s = State.finishFeeder { s with agenda := rest } (.next t) := hstep.trans (congrArg _ hexec)
    _ = _ := finishFeeder_of_full hnofault hr' hfull

/-! ### What each kind of turn does to `OUT` (R26, R122, R153, R155) -/

section Out
variable {s s' t : State}

/-- `OUT` and the trace `ended` are as they were. -/
def State.SameOutput (s s' : State) : Prop := s'.out = s.out ∧ s'.ended = s.ended

theorem nextTurn_sameOutput {turn : Turn} (h : s.nextTurn = (turn, t)) : s.SameOutput t := by
  rw [nextTurn_eq h]
  exact ⟨rfl, rfl⟩

theorem feederStep_sameOutput (h : s.feederStep = .next s') : s.SameOutput s' := by
  obtain ⟨-, rfl⟩ | ⟨-, q, rfl⟩ | ⟨i, b, r, r', -, -, -, -, -, rfl⟩ := feederStep_next h <;> exact ⟨rfl, rfl⟩

/-- Of the host commands only `INIT` and `DEINIT` touch `OUT`. -/
theorem command_output {c : Command} {i : Instr} (hi : decodeCommand c = some i) (h : exec i s = .next s') :
    s.SameOutput s' ∨
    (∃ std, i = .init std true ∧ s.session = none ∧ s'.out = [] ∧ s'.ended = s.ended) ∨
    (i = .deinit ∧ s.session ≠ none ∧ s'.out = [] ∧ s'.ended = s.ended ++ [s.out]) := by
  obtain ⟨std, ok, rfl, hs, -, ⟨rfl, rfl⟩ | ⟨-, rfl⟩⟩ | ⟨r, hr, ⟨rfl, rfl⟩ | ⟨v, -, rfl⟩ |
    ⟨x, y, col, -, rfl | ⟨a, v, -, rfl⟩⟩ | ⟨v, -, rfl⟩ | ⟨-, v, rfl⟩⟩ := command_next hi h
  · exact .inr (.inl ⟨std, rfl, hs, rfl, rfl⟩)
  · exact .inl ⟨rfl, rfl⟩
  · exact .inr (.inr ⟨rfl, by simp [hr], rfl, rfl⟩)
  · exact .inl ⟨rfl, rfl⟩
  · exact .inl ⟨rfl, rfl⟩
  · exact .inl ⟨rfl, rfl⟩
  · exact .inl ⟨rfl, rfl⟩
  · exact .inl ⟨rfl, rfl⟩

end Out

/-- Settles O52, by the three kinds of turn. -/
theorem outputGrowsByWholeLines : Obligations.OutputGrowsByWholeLines := by
  intro s s' h
  obtain ⟨t, ⟨ht, hdma⟩ | ⟨ht, hfeeder⟩ | ⟨c, i, ht, hi, hx⟩⟩ := step_cases h
  all_goals
    have hsession := nextTurn_session ht
    obtain ⟨hout, hended⟩ := nextTurn_sameOutput ht
  · obtain ⟨-, rfl⟩ | ⟨r, line, hr, hline, rfl⟩ := dmaStep_next hdma
    · exact .inl ⟨hout, hended⟩
    · exact .inr (.inr (.inr ⟨t, r, line, ht, hsession.symm.trans hr, hline, by rw [hout], hended⟩))
  · obtain ⟨hout', hended'⟩ := feederStep_sameOutput hfeeder
    exact .inl ⟨hout'.trans hout, hended'.trans hended⟩
  · obtain ⟨rest, ha, -⟩ := nextTurn_host ht
    rw [← hsession, ← hout, ← hended]
    obtain hsame | ⟨std, rfl, hs, hempty, hkept⟩ | ⟨rfl, hs, hempty, hkept⟩ := command_output hi hx
    · exact .inl hsame
    · exact .inr (.inl ⟨c, rest, std, ha, hi, hs, hempty, hkept⟩)
    · exact .inr (.inr (.inl ⟨c, rest, ha, hi, hs, hempty, hkept⟩))

end Sys2Proof.Machine
end

section
namespace Sys2Proof.Machine

open Sys2Proof

/-! ### Segments of the ring (R123, R126) -/

/-- `pend` lists consecutive buffers of a ring of `n`, at most once around, that end just before `txi`. -/
def RingSegment (n txi : Nat) (pend : List Nat) : Prop :=
  pend.length ≤ n ∧ ∀ j, (h : j < pend.length) → pend[j] = (txi + n - pend.length + j) % n

section Ring
variable {n txi b : Nat} {pend : List Nat}

theorem ringSegment_nil (n txi : Nat) : RingSegment n txi [] := ⟨Nat.zero_le n, fun j h => by simp at h⟩

/-- Counted from its end, a place of the ring keeps its number when the end moves on. -/
theorem ring_place_succ {len : Nat} (htxi : txi < n) (hlen : len < n) (j : Nat) :
    ((txi + 1) % n + n - (len + 1) + j) % n = (txi + n - len + j) % n := by
  obtain hlast | hlt : txi + 1 = n ∨ txi + 1 < n := by omega
  · rw [hlast, Nat.mod_self, show txi + n - len + j = 0 + n - (len + 1) + j + n by omega, Nat.add_mod_right]
  · rw [Nat.mod_eq_of_lt hlt, show txi + 1 + n - (len + 1) + j = txi + n - len + j by omega]

/-- The buffer at the end joins a segment that does not yet go around. -/
theorem RingSegment.concat (h : RingSegment n txi pend) (htxi : txi < n) (hroom : pend.length < n) :
    RingSegment n ((txi + 1) % n) (pend ++ [txi]) := by
  obtain ⟨-, hplace⟩ := h
  refine ⟨by simpa using hroom, fun j hj => ?_⟩
  rw [List.length_append, List.length_singleton] at hj ⊢
  rw [ring_place_succ htxi hroom]
  obtain hlt | rfl : j < pend.length ∨ j = pend.length := by omega
  · rw [List.getElem_append_left hlt, hplace j hlt]
  · rw [List.getElem_concat_length rfl, show txi + n - pend.length + pend.length = txi + n by omega, Nat.add_mod_right,
      Nat.mod_eq_of_lt htxi]

/-- The oldest buffer leaves a segment. -/
theorem RingSegment.tail (h : RingSegment n txi (b :: pend)) : RingSegment n txi pend := by
  obtain ⟨hlen, hplace⟩ := h
  rw [List.length_cons] at hlen
  refine ⟨by omega, fun j hj => ?_⟩
  have hnext := hplace (j + 1) (Nat.succ_lt_succ hj)
  rw [List.getElem_cons_succ, List.length_cons,
    show txi + n - (pend.length + 1) + (j + 1) = txi + n - pend.length + j by omega] at hnext
  exact hnext

/-- The buffer at the end belongs to a segment exactly when the segment goes all the way around. -/
theorem RingSegment.mem_txi_iff (h : RingSegment n txi pend) (htxi : txi < n) : txi ∈ pend ↔ pend.length = n := by
  obtain ⟨hlen, hplace⟩ := h
  constructor
  · intro hmem
    obtain ⟨j, hj, hj'⟩ := List.getElem_of_mem hmem
    rw [hplace j hj] at hj'
    by_contra hne
    obtain hlow | hhigh : txi + n - pend.length + j < n ∨ n ≤ txi + n - pend.length + j := by omega
    · rw [Nat.mod_eq_of_lt hlow] at hj'
      omega
    · rw [Nat.mod_eq_sub_mod hhigh, Nat.mod_eq_of_lt (by omega)] at hj'
      omega
  · intro hfull
    have hfirst := hplace 0 (by omega)
    rw [show txi + n - pend.length + 0 = txi by omega, Nat.mod_eq_of_lt htxi] at hfirst
    exact hfirst ▸ List.getElem_mem _

end Ring

/-! ### Ring order, turn by turn -/

section RingOrder
variable {s s' : State} {r : Session}

theorem ringOrder_ready (hr : s.session = some r) :
    s.RingOrder ↔ (s.glitch = false → RingSegment s.cfg.n r.txi s.pend) := by
  simp only [State.RingOrder, hr, RingSegment]

theorem ringOrder_of_empty (hpend : s.pend = []) : s.RingOrder := by
  cases hs : s.session with
  | none => simpa only [State.RingOrder, hs] using hpend
  | some r => exact (ringOrder_ready hs).mpr fun _ => hpend ▸ ringSegment_nil _ _

/-- Ring order speaks of `N`, the session, `GLITCH` and `PEND` only. -/
theorem ringOrder_congr (hcfg : s'.cfg = s.cfg) (hsession : s'.session = s.session) (hglitch : s'.glitch = s.glitch)
    (hpend : s'.pend = s.pend) (h : s.RingOrder) : s'.RingOrder := by
  rw [State.RingOrder, hcfg, hsession, hglitch, hpend]
  exact h

theorem ringOrder_nextTurn {t : State} {turn : Turn} (h : s.RingOrder) (ht : s.nextTurn = (turn, t)) : t.RingOrder := by
  rw [nextTurn_eq ht]
  exact ringOrder_congr rfl rfl rfl rfl h

/-- Of the session it speaks of `TXI` only. -/
theorem ringOrder_withSession {r' : Session} (hr : s.session = some r) (htxi : r'.txi = r.txi) (h : s.RingOrder) :
    (s.withSession r').RingOrder := by
  rw [ringOrder_ready (withSession_session s r'), htxi]
  exact (ringOrder_ready hr).mp h

/-- A DMA step misses no deadline while an event is free (R126): the segment grows by the buffer transmitted. -/
theorem ringOrder_dmaStep (hinv : s.Inv) (h : s.RingOrder) (hstep : s.dmaStep = .next s') : s'.RingOrder := by
  obtain ⟨-, rfl⟩ | ⟨r, line, hr, -, rfl⟩ := dmaStep_next hstep
  · exact h
  · obtain ⟨-, hstores, -, -⟩ := hinv.ready r hr
    refine (ringOrder_ready rfl).mpr fun hglitch => ?_
    obtain ⟨hclear, hnotin⟩ := (glitchAfter_eq_false_iff ..).mp hglitch
    have hring := (ringOrder_ready hr).mp h hclear
    have hroom : s.pend.length < s.cfg.n :=
      lt_of_le_of_ne hring.1 fun hfull => hnotin ((hring.mem_txi_iff hstores.txiIn).mpr hfull)
    exact hring.concat hstores.txiIn hroom

/-- A feeder step that services an event takes the oldest one (R123). -/
theorem ringOrder_feederStep (h : s.RingOrder) (hstep : s.feederStep = .next s') : s'.RingOrder := by
  obtain ⟨-, rfl⟩ | ⟨-, q, rfl⟩ | ⟨i, b, r, r', hf, -, hr, heff, -, rfl⟩ := feederStep_next hstep
  · exact h
  · exact ringOrder_congr rfl rfl rfl rfl h
  · obtain ⟨-, -, pend, -, -, hpend, -⟩ := fetch_line hf
    obtain ⟨-, -, -, htxi, -⟩ := lineEffect_frame heff
    refine (ringOrder_ready rfl).mpr fun hglitch => ?_
    have hring := (ringOrder_ready hr).mp h hglitch
    rw [hpend] at hring
    simp only [htxi, hpend, List.tail_cons]
    exact hring.tail

theorem ringOrder_command {c : Command} {i : Instr} (h : s.RingOrder) (hi : decodeCommand c = some i)
    (hx : exec i s = .next s') : s'.RingOrder := by
  obtain ⟨std, ok, -, -, -, ⟨-, rfl⟩ | ⟨-, rfl⟩⟩ | ⟨r, hr, ⟨-, rfl⟩ | ⟨v, -, rfl⟩ |
    ⟨x, y, col, -, rfl | ⟨a, v, -, rfl⟩⟩ | ⟨v, -, rfl⟩ | ⟨-, v, rfl⟩⟩ := command_next hi hx
  · exact ringOrder_of_empty rfl
  · exact ringOrder_congr rfl rfl rfl rfl h
  · exact ringOrder_of_empty rfl
  · exact ringOrder_congr rfl rfl rfl rfl h
  · exact h
  · exact ringOrder_withSession hr rfl h
  · exact ringOrder_congr rfl rfl rfl rfl h
  · exact ringOrder_congr (s := s.withSession _) rfl rfl rfl rfl (ringOrder_withSession hr rfl h)

theorem step_keeps_ringOrder (hinv : s.Inv) (h : s.RingOrder) (hstep : step s = .next s') : s'.RingOrder := by
  obtain ⟨t, ⟨ht, hdma⟩ | ⟨ht, hfeeder⟩ | ⟨c, i, ht, hi, hx⟩⟩ := step_cases hstep
  · exact ringOrder_dmaStep (inv_nextTurn hinv ht) (ringOrder_nextTurn h ht) hdma
  · exact ringOrder_feederStep (ringOrder_nextTurn h ht) hfeeder
  · exact ringOrder_command (ringOrder_nextTurn h ht) hi hx

/-- While `GLITCH` is clear, the buffer transmitted next is pending exactly when all `N` are (R126). -/
theorem txi_mem_pend_iff (hinv : s.Inv) (h : s.RingOrder) (hr : s.session = some r) (hglitch : s.glitch = false) :
    r.txi ∈ s.pend ↔ s.pend.length = s.cfg.n := by
  obtain ⟨-, hstores, -, -⟩ := hinv.ready r hr
  exact ((ringOrder_ready hr).mp h hglitch).mem_txi_iff hstores.txiIn

end RingOrder

/-- Settles O45: ring order by the three kinds of turn; the deadline is missed when `TXI` is still pending, which in
ring order is when all `N` buffers are. -/
theorem glitchIsTheMissedDeadline : Obligations.GlitchIsTheMissedDeadline := by
  refine ⟨fun s s' hinv h hstep => step_keeps_ringOrder hinv h hstep, ?_⟩
  intro s s' r rest hinv h ha hr hglitch hstep
  rw [step_of_dma (nextTurn_cons ha)] at hstep
  rw [← txi_mem_pend_iff hinv h hr hglitch]
  obtain ⟨hs, -⟩ | ⟨r₀, line, hr₀, -, rfl⟩ := dmaStep_next hstep
  · cases hs.symm.trans hr
  · cases hr₀.symm.trans hr
    simp [glitchAfter_eq_true_iff, hglitch]

end Sys2Proof.Machine
end

section
namespace Sys2Proof.Machine

open Sys2Proof

/-! ### One line instruction on a buffer under refill (R100 to R113) -/

/-- The level codes a line instruction emits in session `r`; none for the other instructions, and for `ACT` where it
raises its fault (R109). -/
def lineLevels (c : Cfg) (r : Session) (i : Instr) : Option (List Nibble) :=
  let p := c.profile r.std
  match i with
  | .ss => some (segmentLevels [(p.short, c.sync), (p.long, c.black), (p.short, c.sync),
      (p.rest (2 * p.short + p.long), c.black)])
  | .ls => some (segmentLevels [(p.long, c.sync), (p.gapLs, c.black), (p.long, c.sync),
      (p.rest (2 * p.long + p.gapLs), c.black)])
  | .bk => some (segmentLevels [(p.normal, c.sync), (p.gapBk, c.black), (p.burstBk, c.colourburst),
      (p.rest (p.normal + p.gapBk + p.burstBk), bkLevel c p r.pixline)])
  | .s2l => some (if p.useSerr
      then segmentLevels [(p.short, c.sync), (p.long, c.black), (p.serr, c.sync),
        (p.rest (p.short + p.long + p.serr), c.black)]
      else segmentLevels [(p.short, c.sync), (p.long, c.black), (p.long, c.sync),
        (p.rest (p.short + 2 * p.long), c.black)])
  | .l2s => some (if p.useSerr
      then segmentLevels [(p.serr, c.sync), (p.normal, c.black), (p.short, c.sync),
        (p.rest (p.serr + p.normal + p.short), c.black)]
      else segmentLevels [(p.long, c.sync), (p.short, c.black), (p.short, c.sync),
        (p.rest (p.long + 2 * p.short), c.black)])
  | .act => if r.rowOutside c then none
      else (rowLevels p r.fb (frontHalf r.frame).toNat r.pixline.toNat).map (actLevels c p)
  | .eof => some (segmentLevels [(p.short, c.sync), (p.long, c.black), (p.short, c.sync),
      (p.rest (2 * p.short + p.long), eofLevel c p)])
  | _ => none

/-- The session after line instruction `i` has emitted `levels`. -/
def Session.afterLineOf (c : Cfg) (i : Instr) (r : Session) (levels : List Nibble) : Session :=
  { r.afterLine c levels with
    sln := lineSln i r.sln, frame := lineFrame i r.frame, pixline := linePixline i r.pixline }

/-- The session after a feeder step that refilled buffer `b` by line instruction `i`. -/
def Session.afterFeeder (c : Cfg) (b : Nat) (i : Instr) (r : Session) (levels : List Nibble) : Session :=
  { Session.afterLineOf c i { r with buf := b, wp := 0 } levels with sln := lineSln i r.sln + 1#16 }

section AfterFeeder
variable (c : Cfg) (b : Nat) (i : Instr) (r : Session) (levels : List Nibble)
@[simp] theorem afterFeeder_sln : (Session.afterFeeder c b i r levels).sln = lineSln i r.sln + 1#16 := rfl
@[simp] theorem afterFeeder_frame : (Session.afterFeeder c b i r levels).frame = lineFrame i r.frame := rfl
@[simp] theorem afterFeeder_tx :
    (Session.afterFeeder c b i r levels).tx = r.tx.set b (Cfg.waveform c r.cur levels) := rfl
end AfterFeeder

section Levels
variable {s : State} {c : Cfg} {r : Session} {i : Instr} {levels : List Nibble}

/-- The levels depend on none of the three buffer registers. -/
theorem lineLevels_buffers (c : Cfg) (r : Session) (i : Instr) (buf wp txi : Nat) :
    lineLevels c { r with buf := buf, wp := wp, txi := txi } i = lineLevels c r i := rfl

/-- Every line instruction has its levels, with good stores and, for `ACT`, a row inside the half. -/
theorem exists_lineLevels (hstores : r.Stores c) (hi : i.isLine = true) (hrow : i = .act → r.rowOutside c = false) :
    ∃ levels, lineLevels c r i = some levels := by
  cases i
  case act =>
    have hin : r.pixline.toNat < (c.profile r.std).fbh := by simpa [Session.rowOutside] using hrow rfl
    obtain ⟨row, hlevels⟩ := hstores.exists_rowLevels (frontHalf r.frame).isLt hin
    exact ⟨_, by simp only [lineLevels, hrow rfl, hlevels]; rfl⟩
  case ss | ls | bk | s2l | l2s | eof => exact ⟨_, rfl⟩
  all_goals cases hi

/-- A line instruction that has levels fills the line with them. -/
theorem State.Refilling.exec_line (h : s.Refilling r) (hlevels : lineLevels s.cfg r i = some levels) :
    levels.length = (s.cfg.profile r.std).l ∧
      exec i s = .next (s.withSession (Session.afterLineOf s.cfg i r levels)) := by
  obtain ⟨⟨hss, hls, hs2l, hl2s⟩, hexecSs, hexecLs, hexecS2l, hexecL2s⟩ := syncLinesFillTheBuffer s r h
  cases i <;> simp only [lineLevels, Option.some.injEq, reduceCtorEq] at hlevels
  case ss => subst hlevels; exact ⟨hss, hexecSs⟩
  case ls => subst hlevels; exact ⟨hls, hexecLs⟩
  case s2l => subst hlevels; exact ⟨hs2l, hexecS2l⟩
  case l2s => subst hlevels; exact ⟨hl2s, hexecL2s⟩
  case bk =>
    obtain ⟨⟨-, -, hfit, -⟩, -⟩ := (w3_iff _).mp h.stores.w3
    have hlen : levels.length = (s.cfg.profile r.std).l := by
      rw [← hlevels]
      exact segmentLevels_length_rest rfl hfit
    subst hlevels
    exact ⟨hlen, runLine_eq h.isReady (h.fills_eq_afterLine hlen)⟩
  case eof =>
    obtain ⟨⟨hfit, -⟩, -⟩ := (w3_iff _).mp h.stores.w3
    have hlen : levels.length = (s.cfg.profile r.std).l := by
      rw [← hlevels]
      exact segmentLevels_length_rest (by omega) hfit
    subst hlevels
    exact ⟨hlen, runLine_eq h.isReady (congrArg (Option.map _) (h.fills_eq_afterLine hlen))⟩
  case act =>
    split at hlevels
    · cases hlevels
    · rename_i hinside
      obtain ⟨row, hrow, rfl⟩ := Option.map_eq_some_iff.mp hlevels
      obtain ⟨hlen, -⟩ := rowLevels_eq_some_iff.mp hrow
      have hin : r.pixline.toNat < (s.cfg.profile r.std).fbh := by simpa [Session.rowOutside] using hinside
      exact ⟨actLevels_length h.stores.w3 hlen, execAct_eq_afterAct h hin hrow⟩

end Levels

/-! ### The feeder step in a good state (R124, R17) -/

section Service
variable {s : State} {c : Cfg} {r : Session} {b : Nat} {pend : List Nat} {code : Nibble} {i : Instr}
  {levels : List Nibble}

/-- A slot of the frame can be fetched: the table is long enough for all of them (W4). -/
theorem exists_lookup (hwf : c.violation r.std = none) (hp : r.Placed c) : ∃ code, r.lookup c = some code := by
  obtain ⟨-, -, -, hw4, -⟩ := (violation_eq_none_iff c r.std).mp hwf
  obtain ⟨⟨hbytes, hcount⟩, -⟩ := by simpa [Profile.w4] using hw4
  have hslot : r.sln.toNat < (slotCodes (c.profile r.std).vtm).length := by
    have hsln := BitVec.toInt_eq_toNat_cond r.sln
    have hlow := hp.slnLow
    have hhigh := hp.slnHigh
    rw [slotCodes_length]
    omega
  rw [lookup_eq_slotCode hp.slnLow hp.slnHigh, slotCode_eq_getElem?]
  exact ⟨_, List.getElem?_eq_getElem hslot⟩

/-- In a good state the slot at `SLN` holds a line instruction, and the instruction has its levels. -/
theorem State.Inv.exists_line (h : s.Inv) (hr : s.session = some r) :
    ∃ code i levels, r.lookup s.cfg = some code ∧ decodeLine code = some i ∧ lineLevels s.cfg r i = some levels := by
  obtain ⟨-, hstores, hplaced, -⟩ := h.ready r hr
  obtain ⟨code, hcode⟩ := exists_lookup hstores.wellFormed hplaced
  obtain ⟨i, hi⟩ := Option.isSome_iff_exists.mp (decodeLine_isSome_of_lookup hstores.wellFormed hcode)
  obtain ⟨levels, hlevels⟩ := exists_lineLevels hstores (decodeLine_isLine hi) fun hact =>
    rowOutside_eq_false hstores.wellFormed hplaced hcode (hact ▸ hi)
  exact ⟨code, i, levels, hcode, hi, hlevels⟩

/-- The feeder step that services the event of buffer `b`. -/
theorem State.Inv.feederStep_eq (h : s.Inv) (hr : s.session = some r) (hp : s.pend = b :: pend)
    (hcode : r.lookup s.cfg = some code) (hi : decodeLine code = some i)
    (hlevels : lineLevels s.cfg r i = some levels) :
    s.feederStep = .next { s with session := some (Session.afterFeeder s.cfg b i r levels), pend := s.pend.tail } := by
  obtain ⟨hirq, hstores, -, hbufs⟩ := h.ready r hr
  have hrefill : (s.withSession { r with buf := b, wp := 0 }).Refilling { r with buf := b, wp := 0 } :=
    ⟨rfl, hstores.of_shape rfl rfl rfl hstores.curIn hstores.txiIn, hbufs b (by simp [hp]), rfl⟩
  obtain ⟨hlen, hexec⟩ := hrefill.exec_line ((lineLevels_buffers ..).trans hlevels)
  rw [feederStep_of_line (fetch_eq_line (feederEnabled_of_pend hirq h.noFault hp) hr hp hcode hi) hr, hexec]
  exact finishFeeder_of_full h.noFault (withSession_session ..) hlen

/-- The signed slot number moves on by one from every slot but the last (R11, R17). -/
theorem succ_sln_toInt (htotal : (c.profile r.std).total ≤ 32767) (hwf : c.violation r.std = none) (hp : r.Placed c)
    (hcode : r.lookup c = some code) (hne : code ≠ 6#4) : (r.sln + 1#16).toInt = r.sln.toInt + 1 := by
  obtain ⟨hslot, -, -⟩ := (placed_iff htotal).mp hp
  have hnext := succ_sln_lt_total hwf hslot hcode hne
  have hnat : (r.sln + 1#16).toNat = r.sln.toNat + 1 :=
    BitVec.toNat_add_of_lt (by simp only [BitVec.toNat_ofNat]; omega)
  rw [BitVec.toInt_eq_toNat_cond, BitVec.toInt_eq_toNat_cond, hnat, if_pos (by omega), if_pos (by omega)]
  rfl

end Service

/-- Settles O47: the step is that of the slot's line; only `EOF` has effects on `SLN` and `FRAME` of its own. -/
theorem feederStepServicesOneEvent : Obligations.FeederStepServicesOneEvent := by
  intro s r rest h ha hr hpend
  obtain ⟨b, pend, hp⟩ := List.exists_cons_of_ne_nil hpend
  obtain ⟨code, i, levels, hcode, hi, hlevels⟩ := h.exists_line hr
  obtain ⟨-, hstores, hplaced, -⟩ := h.ready r hr
  obtain ⟨-, -, heof⟩ := decodeLine_effect_iff hi
  have hturn := nextTurn_cons ha
  have hstep := (step_of_feeder hturn).trans ((inv_nextTurn h hturn).feederStep_eq hr hp hcode hi hlevels)
  refine ⟨code, _, _, hcode, hstep, rfl, rfl, fun hlast => ?_, fun hne => ?_⟩
  · obtain rfl := heof.mpr hlast
    simp [lineSln, lineFrame]
  · have hother : i ≠ .eof := mt heof.mp hne
    rw [afterFeeder_sln, afterFeeder_frame, lineSln, lineFrame, if_neg hother, if_neg hother]
    exact ⟨succ_sln_toInt (h.total_le r.std) hstores.wellFormed hplaced hcode hne, rfl⟩

/-! ### The two agents before the deadline (R128) -/

/-- Settles O46: the feeder refills another buffer than the one the DMA agent transmits, which is not pending in either
order; and no line instruction reads or writes what the DMA agent does. -/
theorem agentsCommuteBeforeTheDeadline : Obligations.AgentsCommuteBeforeTheDeadline := by
  intro s r h hring hr hglitch hpend hroom
  obtain ⟨b, pend, hp⟩ := List.exists_cons_of_ne_nil hpend
  obtain ⟨code, i, levels, hcode, hi, hlevels⟩ := h.exists_line hr
  obtain ⟨-, hstores, -, -⟩ := h.ready r hr
  obtain ⟨line, hline, -⟩ := hstores.exists_txiLine
  have hfree : r.txi ∉ s.pend := mt (txi_mem_pend_iff h hring hr hglitch).mp hroom.ne
  have hfree' : r.txi ∉ s.pend.tail := fun hmem => hfree (List.mem_of_mem_tail hmem)
  have hother : b ≠ r.txi := fun heq => hfree (by simp [hp, heq])
  have hdma := dmaStep_ready hr hline
  have hfeeder := h.feederStep_eq hr hp hcode hi hlevels
  have hdmaFeeder := (inv_dmaStep h hdma).feederStep_eq rfl (by rw [hp]; rfl) hcode hi
    ((lineLevels_buffers ..).trans hlevels)
  have hline' : (Session.afterFeeder s.cfg b i r levels).tx[r.txi]? = some line := by
    rw [afterFeeder_tx, List.getElem?_set_ne hother, hline]
  have hfeederDma := dmaStep_ready
    (s := { s with session := some (Session.afterFeeder s.cfg b i r levels), pend := s.pend.tail }) rfl hline'
  have hnoglitch : glitchAfter s.glitch s.pend r.txi = glitchAfter s.glitch s.pend.tail r.txi := by
    rw [(glitchAfter_eq_false_iff ..).mpr ⟨hglitch, hfree⟩, (glitchAfter_eq_false_iff ..).mpr ⟨hglitch, hfree'⟩]
  refine ⟨_, _, _, hdma, hdmaFeeder, hfeeder, hfeederDma.trans ?_⟩
  -- What is left holds by `afterFeeder`, which neither reads nor writes `TXI`.
  rw [hnoglitch, List.tail_append_of_ne_nil hpend]
  rfl

end Sys2Proof.Machine
end

section
namespace Sys2Proof.Machine

open Sys2Proof

/-! ### Reading the framebuffer after one byte was stored (R45) -/

section ReadFb
variable {s : State} {r : Session} {a : Nat}

theorem fb_ready (hr : s.session = some r) : s.fb = r.fb := by simp only [State.fb, hr]

theorem readFb_ready (hr : s.session = some r) (a : Nat) : s.readFb a = Memory.read r.fb a := by
  rw [State.readFb, fb_ready hr]

theorem readFb_put_same {b : Byte} (hb : Memory.read r.fb a = some b) (v : Byte) :
    (s.withSession { r with fb := Memory.put r.fb a v }).readFb a = some v :=
  memory_read_put_same r.fb a v (by rw [hb]; rfl)

theorem readFb_put_other (hr : s.session = some r) {a' : Nat} (hne : a' ≠ a) (v : Byte) :
    (s.withSession { r with fb := Memory.put r.fb a v }).readFb a' = s.readFb a' := by
  rw [readFb_ready hr]
  exact memory_read_put_other r.fb a a' v hne

theorem withSession_self (hr : s.session = some r) : s.withSession r = s := by
  rw [State.withSession, ← hr]

end ReadFb

/-! ### The bounds of the two densities (R136) -/

theorem inRange_iff (p : Profile) (w : Nat) (x y : Coord) :
    inRange p w x y = true ↔ 0 ≤ x.toInt ∧ x.toInt < (w : Int) ∧ 0 ≤ y.toInt ∧ y.toInt < (p.fbh : Int) :=
  decide_eq_true_iff

/-- Coordinates leave the bounds on one of the four sides (R141). -/
theorem inRange_eq_false_iff (p : Profile) (w : Nat) (x y : Coord) :
    inRange p w x y = false ↔ x.toInt < 0 ∨ (w : Int) ≤ x.toInt ∨ y.toInt < 0 ∨ (p.fbh : Int) ≤ y.toInt := by
  rw [← Bool.not_eq_true, inRange_iff]
  omega

/-! ### The writers inside and outside their bounds (R137 to R141) -/

section Writers
variable {s : State} {r : Session} {x y : Coord}

theorem exec_pixsd (hr : s.session = some r) (x y : Coord) (c : Nibble) :
    exec (.pixsd x y c) s = s.writeSd r x y c := whenReady_ready _ hr

theorem exec_pixdd0 (hr : s.session = some r) (x y : Coord) : exec (.pixdd0 x y) s = s.writeDd r x y false :=
  whenReady_ready _ hr

theorem exec_pixdd1 (hr : s.session = some r) (x y : Coord) : exec (.pixdd1 x y) s = s.writeDd r x y true :=
  whenReady_ready _ hr

theorem writeSd_of_outside (c : Nibble)
    (hout : inRange (s.cfg.profile r.std) (s.cfg.profile r.std).fbw2 x y = false) : s.writeSd r x y c = .next s := by
  simp [State.writeSd, hout]

theorem writeDd_of_outside (white : Bool)
    (hout : inRange (s.cfg.profile r.std) (s.cfg.profile r.std).fbw x y = false) :
    s.writeDd r x y white = .next s := by
  simp [State.writeDd, hout]

/-- In range the byte of the pixel is there to be merged with the level code (R137). -/
theorem writeSd_of_inside (hstores : r.Stores s.cfg)
    (hin : inRange (s.cfg.profile r.std) (s.cfg.profile r.std).fbw2 x y = true) :
    ∃ b, Memory.read r.fb (sdAddress (s.cfg.profile r.std) r.wsel.toNat x y) = some b ∧
      ∀ c, s.writeSd r x y c = .next (s.withSession { r with
        fb := Memory.put r.fb (sdAddress (s.cfg.profile r.std) r.wsel.toNat x y) (sdMerge x c b) }) := by
  obtain ⟨b, hb⟩ := Option.isSome_iff_exists.mp
    (hstores.read_isSome (lt_fbsize_of_inHalf r.wsel.isLt (inHalf_sdAddress hstores.w1 hin)))
  refine ⟨b, hb, fun c => ?_⟩
  simp only [State.writeSd, if_pos hin]
  exact editFb_eq _ hb

/-- In range the byte of the pixel is there to have one bit set or cleared (R138, R139). -/
theorem writeDd_of_inside (hstores : r.Stores s.cfg)
    (hin : inRange (s.cfg.profile r.std) (s.cfg.profile r.std).fbw x y = true) :
    ∃ b, Memory.read r.fb (ddAddress (s.cfg.profile r.std) r.wsel.toNat x y) = some b ∧
      ∀ white, s.writeDd r x y white = .next (s.withSession { r with
        fb := Memory.put r.fb (ddAddress (s.cfg.profile r.std) r.wsel.toNat x y)
          (ddMerge (ddBitOf s.cfg x) white b) }) := by
  obtain ⟨b, hb⟩ := Option.isSome_iff_exists.mp
    (hstores.read_isSome (lt_fbsize_of_inHalf r.wsel.isLt (inHalf_ddAddress hstores.w1 hin)))
  refine ⟨b, hb, fun white => ?_⟩
  simp only [State.writeDd, if_pos hin]
  exact editFb_eq _ hb

/-- A `TACK` with an invalid colour, or outside the bounds of the density its colour selects, is discarded (R141). -/
theorem execTack_of_discarded {col : Byte} (hr : s.session = some r)
    (h : s.cfg.maxCol < col.toNat ∨
      (col.toNat < s.cfg.ddBase ∧ inRange (s.cfg.profile r.std) (s.cfg.profile r.std).fbw2 x y = false) ∨
      (s.cfg.ddBase ≤ col.toNat ∧ inRange (s.cfg.profile r.std) (s.cfg.profile r.std).fbw x y = false)) :
    exec (.tack x y col) s = .next s := by
  by_cases hmax : col.toNat ≤ s.cfg.maxCol
  · obtain hinvalid | ⟨hcol, hout⟩ | ⟨hcol, hout⟩ := h
    · exact absurd hmax hinvalid.not_ge
    · exact (execTack_of_single x y hmax hcol).trans ((exec_pixsd hr x y _).trans (writeSd_of_outside _ hout))
    · exact (execTack_of_double x y hmax hcol rfl).trans ((whenReady_ready _ hr).trans (writeDd_of_outside _ hout))
  · exact execTack_of_invalid x y hr (Nat.lt_of_not_le hmax)

end Writers

/-- Settles O32: each writer, and the `TACK` that would select it, discards what is outside its bounds. -/
theorem outOfRangeDrawingIsDiscarded : Obligations.OutOfRangeDrawingIsDiscarded := by
  intro s r x y hr p outside
  have hfalse : ∀ {w : Nat}, outside w → inRange p w x y = false := (inRange_eq_false_iff p _ x y).mpr
  refine ⟨fun col hcol => execTack_of_discarded hr ?_, fun hout c => ?_, fun hout => ⟨?_, ?_⟩⟩
  · exact hcol.imp_right (Or.imp (And.imp_right hfalse) (And.imp_right hfalse))
  · rw [exec_pixsd hr, writeSd_of_outside c (hfalse hout)]
  · rw [exec_pixdd0 hr, writeDd_of_outside false (hfalse hout)]
  · rw [exec_pixdd1 hr, writeDd_of_outside true (hfalse hout)]

/-- The level code of a single-density colour is `col[3:0]` (R135). -/
theorem lowNibble_eq_ofNat_mod (col : Byte) : lowNibble col = BitVec.ofNat 4 (col.toNat % 16) := by
  apply BitVec.eq_of_toNat_eq
  simp [lowNibble_eq_ofNat]

/-- Settles O31: by the range of the colour; in range the selected writer finds its byte and completes. -/
theorem tackRunsTheSelectedWriter : Obligations.TackRunsTheSelectedWriter := by
  intro s x y col
  refine ⟨whenReady_uninit _, ?_⟩
  intro r hr hstores p inside
  have htrue : ∀ {w : Nat}, inside w → inRange p w x y = true := (inRange_iff p _ x y).mpr
  have hfalse : ∀ {w : Nat}, ¬ inside w → inRange p w x y = false := fun hout =>
    Bool.eq_false_iff.mpr (mt (inRange_iff p _ x y).mp hout)
  refine ⟨fun hmax => ?_, fun _ hcol hout => ?_, fun _ hcol hout => ?_, fun hmax hcol hin => ?_,
    fun hmax hcol hin => ?_⟩
  · exact execTack_of_discarded hr (.inl hmax)
  · exact execTack_of_discarded hr (.inr (.inl ⟨hcol, hfalse hout⟩))
  · exact execTack_of_discarded hr (.inr (.inr ⟨hcol, hfalse hout⟩))
  · obtain ⟨b, -, hwrite⟩ := writeSd_of_inside hstores (htrue hin)
    have hsd := (exec_pixsd hr x y (lowNibble col)).trans (hwrite _)
    exact ⟨_, (execTack_of_single x y hmax hcol).trans hsd, lowNibble_eq_ofNat_mod col ▸ hsd⟩
  · obtain ⟨b, -, hwrite⟩ := writeDd_of_inside hstores (htrue hin)
    refine ⟨_, (execTack_of_double x y hmax hcol rfl).trans ((whenReady_ready _ hr).trans (hwrite _)),
      fun hwhite => ?_, fun hother => ?_⟩
    · rw [exec_pixdd1 hr, hwrite, decide_eq_true hwhite]
    · rw [exec_pixdd0 hr, hwrite, decide_eq_false hother]

/-! ### The byte a writer edits (R137, R138, R139) -/

theorem ddAddress_eq_rowByte (p : Profile) (h : Nat) (x y : Coord) :
    ddAddress p h x y = rowByte p h y.toNat (x.toNat / 4) := by rw [ddAddress, Nat.shiftRight_eq_div_pow]

/-- A double-density write gives its bit the colour and keeps the seven others (R138, R139). -/
theorem ddMerge_getLsbD (k : Nat) (white : Bool) (b : Byte) {i : Nat} (hi : i < 8) :
    (ddMerge k white b).getLsbD i = if i = k then white else b.getLsbD i := by
  have hbit : (1#8 <<< k).getLsbD i = decide (i = k) := by
    rw [BitVec.getLsbD_shiftLeft, BitVec.getLsbD_one]
    grind
  cases white with
  | true =>
    rw [ddMerge, if_pos rfl, BitVec.getLsbD_or, hbit]
    by_cases hik : i = k <;> simp [hik]
  | false =>
    rw [ddMerge, if_neg Bool.false_ne_true, BitVec.getLsbD_and, BitVec.getLsbD_not, hbit]
    by_cases hik : i = k <;> simp [hi, hik]

/-- Settles O30: both addresses lie in the framebuffer, so the byte there is read, merged and put back. -/
theorem pixelWritersEditOneByte : Obligations.PixelWritersEditOneByte := by
  intro s r x y hr hstores p h
  refine ⟨fun hin c => ?_, fun hin => ?_⟩
  · obtain ⟨b, hb, hwrite⟩ := writeSd_of_inside hstores hin
    rw [sdAddress_eq_rowByte] at hb hwrite
    refine ⟨b, _, (readFb_ready hr _).trans hb, (exec_pixsd hr x y c).trans (hwrite c), ⟨_, rfl⟩, ?_,
      fun a hne => readFb_put_other hr hne _⟩
    exact (readFb_put_same hb _).trans (congrArg some (sdMerge_eq_packNibbles x c b))
  · obtain ⟨b, hb, hwrite⟩ := writeDd_of_inside hstores hin
    rw [ddAddress_eq_rowByte] at hb hwrite
    exact ⟨b, _, _, (readFb_ready hr _).trans hb, (exec_pixdd0 hr x y).trans (hwrite false),
      (exec_pixdd1 hr x y).trans (hwrite true), ⟨_, rfl⟩, ⟨_, rfl⟩,
      ⟨_, _, readFb_put_same hb _, readFb_put_same hb _,
        fun k hk => ⟨ddMerge_getLsbD _ false b hk, ddMerge_getLsbD _ true b hk⟩⟩,
      fun a hne => ⟨readFb_put_other hr hne _, readFb_put_other hr hne _⟩⟩

/-! ### The pixels a single-density write leaves (R67, R74, R137) -/

section OtherPixels
variable {p : Profile} {fb : List Host.Cell} {h h' row row' j j' : Nat}

/-- A byte of the framebuffer has one place: half, row and column (R47). -/
theorem rowByte_injective (hrow : row < p.fbh) (hj : j < p.stride) (hrow' : row' < p.fbh) (hj' : j' < p.stride)
    (heq : rowByte p h row j = rowByte p h' row' j') : h = h' ∧ row = row' ∧ j = j' := by
  have hhalf : h = h' := inHalf_unique (inHalf_rowByte hrow hj) (heq ▸ inHalf_rowByte hrow' hj')
  subst hhalf
  have hplace : p.stride * row + j = p.stride * row' + j' := by
    simp only [rowByte, Nat.mul_comm _ p.stride] at heq
    omega
  have hdiv := congrArg (· / p.stride) hplace
  simp only [Nat.mul_add_div (Nat.zero_lt_of_lt hj), Nat.div_eq_of_lt hj, Nat.div_eq_of_lt hj', Nat.add_zero] at hdiv
  subst hdiv
  exact ⟨rfl, rfl, Nat.add_left_cancel hplace⟩

/-- The merge keeps the nibble of the horizontally adjacent pixel (R137). -/
theorem sdMerge_neighbour {x : Coord} {x' : Nat} (c : Nibble) (b : Byte) (hne : x' % 2 ≠ x.toNat % 2) :
    (if x' % 2 = 0 then lowNibble (sdMerge x c b) else highNibble (sdMerge x c b)) =
      if x' % 2 = 0 then lowNibble b else highNibble b := by
  rw [sdMerge_eq_packNibbles]
  by_cases heven : x.toNat % 2 = 0
  · have hodd : ¬ x' % 2 = 0 := fun h => hne (h.trans heven.symm)
    simp only [if_pos heven, if_neg hodd, highNibble_packNibbles]
  · have heven' : x' % 2 = 0 := by omega
    simp only [if_neg heven, if_pos heven', lowNibble_packNibbles]

theorem sdPixel_put_sdMerge_other {x y : Coord} {x' y' : Nat} {b : Byte} (c : Nibble) (hw1 : p.w1 = true)
    (hin : inRange p p.fbw2 x y = true) (hb : Memory.read fb (sdAddress p h x y) = some b) (hx' : x' < p.fbw2)
    (hy' : y' < p.fbh) (hne : (h', x', y') ≠ (h, x.toNat, y.toNat)) :
    sdPixel p (Memory.put fb (sdAddress p h x y) (sdMerge x c b)) h' x' y' = sdPixel p fb h' x' y' := by
  obtain ⟨hx, hy⟩ := inRange_toNat_lt hin
  obtain ⟨-, hwidth⟩ := fbw_eq_stride hw1
  by_cases hbyte : rowByte p h' y' (x' / 2) = sdAddress p h x y
  · have hsame := hbyte.trans (sdAddress_eq_rowByte p h x y)
    obtain ⟨rfl, rfl, hcol⟩ := rowByte_injective hy' (by omega) hy (by omega) hsame
    have hx'x : x' ≠ x.toNat := fun heq => hne (by rw [heq])
    have hparity : x' % 2 ≠ x.toNat % 2 := by omega
    have hread := memory_read_put_same fb (sdAddress p h' x y) (sdMerge x c b) (by rw [hb]; rfl)
    simp only [sdPixel, hbyte, hread, hb, Option.map_some, sdMerge_neighbour c b hparity]
  · rw [sdPixel, memory_read_put_other _ _ _ _ hbyte, sdPixel]

end OtherPixels

/-- Settles O34: another pixel is in another byte, or in the other nibble of the byte edited. -/
theorem singleDensityWriteChangesOnePixel : Obligations.SingleDensityWriteChangesOnePixel := by
  intro s t r x y c hr hstores hexec p hin
  obtain ⟨b, hb, hwrite⟩ := writeSd_of_inside hstores hin
  rw [exec_pixsd hr, hwrite c] at hexec
  obtain rfl := Host.Outcome.next.inj hexec
  refine ⟨sdPixel_put_sdMerge c hb, fun h' x' y' _ hx' hy' hne => ?_⟩
  rw [fb_ready hr]
  exact sdPixel_put_sdMerge_other c hstores.w1 hin hb hx' hy' hne

/-! ### Drawing and the two halves (R47, R140) -/

/-- The two halves do not overlap, and together they are the framebuffer (R47). -/
theorem inHalf_zero_iff_not_one {p : Profile} {a : Nat} (ha : a < p.fbsize) : inHalf p 0 a ↔ ¬ inHalf p 1 a := by
  simp only [inHalf, Profile.fbsize, Nat.zero_mul, Nat.one_mul] at ha ⊢
  omega

section DrawsInHalf
variable {s t : State} {r : Session}

theorem State.DrawsInHalf.eq_withSession (h : s.DrawsInHalf r t) (hr : s.session = some r) :
    ∃ fb, t = s.withSession { r with fb := fb } := by
  obtain rfl | ⟨a, v, -, rfl⟩ := h
  · exact ⟨r.fb, (withSession_self hr).symm⟩
  · exact ⟨_, rfl⟩

end DrawsInHalf

/-- Settles O35: each of the four instructions runs a writer, and a writer draws in the selected half. -/
theorem drawingStaysInTheSelectedHalf : Obligations.DrawingStaysInTheSelectedHalf := by
  intro s t r i hr hstores hi hexec
  have hdraws : s.DrawsInHalf r t := by
    obtain ⟨x, y, col, rfl⟩ | ⟨x, y, c, rfl⟩ | ⟨x, y, rfl⟩ | ⟨x, y, rfl⟩ := hi
    · exact execTack_drawsInHalf hr hstores.w1 hexec
    · exact writeSd_drawsInHalf hstores.w1 ((exec_pixsd hr x y c).symm.trans hexec)
    · exact writeDd_drawsInHalf hstores.w1 ((exec_pixdd0 hr x y).symm.trans hexec)
    · exact writeDd_drawsInHalf hstores.w1 ((exec_pixdd1 hr x y).symm.trans hexec)
  exact ⟨hdraws.eq_withSession hr, fun a ha => hdraws.readFb_eq hr ha, fun a ha => inHalf_zero_iff_not_one ha⟩

end Sys2Proof.Machine
end

section
namespace Sys2Proof.Machine

open Sys2Proof

/-! ### Commands in the wrong state (R165) -/

theorem execInit_ready {s : State} {r : Session} (hr : s.session = some r) (std : Std) (ok : Bool) :
    exec (.init std ok) s = .refused .wrongState := by simp only [exec, execInit, hr]

/-- Settles O2: every command but `INIT` asks for a session first. -/
theorem commandsInTheWrongState : Obligations.CommandsInTheWrongState := by
  refine ⟨fun s r std ok hr => execInit_ready hr std ok, fun s hs => ?_⟩
  have refused (f : Session → Result) : s.whenReady f = .refused .wrongState := whenReady_uninit f hs
  exact ⟨refused _, refused _, refused _, refused _, refused _, refused _, refused _, fun _ _ _ => refused _⟩

/-- Settles O3: the pixel writers ask for a session as `TACK` does. -/
theorem pixelWritersNeedAReadyBlock : Obligations.PixelWritersNeedAReadyBlock := by
  intro s hs x y
  exact ⟨fun _ => whenReady_uninit _ hs, whenReady_uninit _ hs, whenReady_uninit _ hs⟩

/-! ### `INIT` and `DEINIT` (R153, R154, R155) -/

section Init
variable {s : State} {std : Std}

/-- An allocation that succeeds resets the block and answers status 0 (R153). -/
theorem execInit_allocated (hs : s.session = none) (hwf : s.cfg.violation std = none) :
    exec (.init std true) s = .next ((s.afterInit std).reply (.status 0#1)) := by
  simp only [exec, execInit, hs, hwf, if_true]

/-- An allocation that fails answers status 1 (R154). -/
theorem execInit_notAllocated (hs : s.session = none) (hwf : s.cfg.violation std = none) :
    exec (.init std false) s = .next (s.reply (.status 1#1)) := by
  simp only [exec, execInit, hs, hwf, Bool.false_eq_true, if_false]

end Init

theorem fbsize_eq (p : Profile) : p.fbsize = p.fbw / 4 * p.fbh * 2 := by
  rw [Profile.fbsize, Profile.half, Profile.stride, Nat.mul_comm 2]

/-- Settles O10: the stores are those drawn for the fresh session. -/
theorem initResetsTheBlock : Obligations.InitResetsTheBlock := by
  intro s std
  refine ⟨fun r ok hr => execInit_ready hr std ok, fun ok hs hbroken => ?_, fun hs hwf => ?_⟩
  · obtain ⟨w, hw⟩ := Option.ne_none_iff_exists'.mp hbroken
    exact ⟨w, execInit_of_violation ok hs hw⟩
  · refine ⟨execInit_notAllocated hs hwf, ?_⟩
    rw [← fbsize_eq]
    exact ⟨_, _, _, _, _, drawFb_addresses s.draws _, drawTx_length s.draws _ _, drawTx_lines s.draws _ _,
      execInit_allocated hs hwf⟩

/-- Settles O11: without a session neither agent is enabled, and the answer to the failed `INIT` is no obstacle to the
next one. -/
theorem failedAllocationLeavesTheBlockUninitialised :
    Obligations.FailedAllocationLeavesTheBlockUninitialised := by
  intro s std hinv hs hwf
  obtain ⟨hirq, -, -, -⟩ := hinv.uninit hs
  refine ⟨_, execInit_notAllocated hs hwf, rfl, ?_, feederEnabled_eq_false (.inl hirq), _,
    execInit_allocated (s := s.reply _) hs hwf, rfl⟩
  rw [State.dmaEnabled, State.inited, reply_session, hs, Option.isSome_none]

/-- Settles O13: `DEINIT` in `READY` answers the state `afterDeinit` names. -/
theorem deinitEndsTheSession : Obligations.DeinitEndsTheSession := fun _ _ hr => whenReady_ready _ hr

/-! ### `START` and `STOP` (R156, R157) -/

/-- A command that sets `BCAST` alone answers a state in which it answers the same again. -/
theorem whenReady_setBcast_idempotent {s t : State} {v : Bool}
    (h : s.whenReady (fun _ => .next { s with bcast := v }) = .next t) :
    t.whenReady (fun _ => .next { t with bcast := v }) = .next t := by
  obtain ⟨r, hr, h⟩ := whenReady_next h
  cases h
  exact whenReady_ready _ hr

/-- Settles O14: `START` is the setting of `BCAST` to 1. -/
theorem startArmsTheNotification : Obligations.StartArmsTheNotification :=
  ⟨fun _ _ hr => whenReady_ready _ hr, fun _ hs => whenReady_uninit _ hs,
    fun _ _ h => whenReady_setBcast_idempotent h⟩

/-- Settles O15: `STOP` is the setting of `BCAST` to 0. -/
theorem stopDisarmsTheNotification : Obligations.StopDisarmsTheNotification :=
  ⟨fun _ _ hr => whenReady_ready _ hr, fun _ hs => whenReady_uninit _ hs,
    fun _ _ h => whenReady_setBcast_idempotent h⟩

/-! ### The queries and `GET_BACK` (R158, R159, R162, R163) -/

/-- Settles O16: the sizes are answered as they are where 32 bits hold them. -/
theorem queriesAnswerAndWriteNothing : Obligations.QueriesAnswerAndWriteNothing := by
  intro s r hr
  exact ⟨whenReady_ready _ hr, ⟨_, queryResult_toNat, whenReady_ready _ hr⟩, _, queryResult_toNat,
    whenReady_ready _ hr⟩

/-- The half handed out is the one the next frame shows (R151). -/
theorem backHalf_eq_frontHalf_succ (frame : BitVec 32) : backHalf frame = frontHalf (frame + 1#32) := rfl

theorem backHalf_toNat (frame : BitVec 32) : (backHalf frame).toNat = (frame + 1#32).toNat % 2 := by
  rw [backHalf_eq_frontHalf_succ, frontHalf_toNat]

/-- Settles O17: the low bit of `FRAME + 1` is the complement of that of `FRAME`, across the wrap too. -/
theorem getBackLatchesTheBackHalf : Obligations.GetBackLatchesTheBackHalf := by
  intro s r hr
  refine ⟨backHalf r.frame, backHalf_toNat r.frame, ?_, ?_⟩
  · rw [backHalf_toNat, BitVec.toNat_add, BitVec.toNat_ofNat]
    omega
  · rw [BitVec.ofNat_toNat]
    exact whenReady_ready _ hr

/-- Settles O18: the half handed out at `FRAME + 1` is the complement of the half shown then, which is the half handed
out at `FRAME`. -/
theorem handedOutHalvesAlternate : Obligations.HandedOutHalvesAlternate := by
  intro frame
  refine ⟨?_, backHalf_eq_not_frontHalf frame, backHalf_eq_frontHalf_succ frame⟩
  rw [backHalf_eq_not_frontHalf (frame + 1#32), backHalf_eq_frontHalf_succ]

/-! ### A handle kept past `EOF` (R166) -/

/-- A step that runs `EOF` in a good state leaves `WSEL` and adds 1 to `FRAME`. -/
theorem step_of_runsEof {s s' : State} {r : Session} (hinv : s.Inv) (heof : s.RunsEof) (hr : s.session = some r)
    (h : step s = .next s') :
    ∃ r', s'.session = some r' ∧ r'.std = r.std ∧ r'.wsel = r.wsel ∧ r'.frame = r.frame + 1#32 := by
  obtain ⟨t, b, hturn, hfetch⟩ := heof
  rw [step_of_feeder hturn] at h
  obtain ⟨hidle, -⟩ | ⟨-, q, rfl⟩ | ⟨i, b', r₀, r', hf, -, hr₀, heff, -, rfl⟩ := feederStep_next h
  · cases hidle.symm.trans hfetch
  · cases feederStep_noFault (inv_nextTurn hinv hturn) h
  · cases hf.symm.trans hfetch
    cases hr₀.symm.trans ((nextTurn_session hturn).trans hr)
    obtain ⟨hstd, hwsel, -, -, -, -, hframe, -⟩ := lineEffect_frame heff
    exact ⟨_, rfl, hstd, hwsel, hframe⟩

/-- Settles O56: `EOF` leaves `WSEL`, so what was the back half is now the half shown, and in range a single-density
write completes. -/
theorem lateClientTears : Obligations.LateClientTears := by
  intro s s' r hinv hpunctual heof hr h
  obtain ⟨r', hr', hstd, hwsel, hframe⟩ := step_of_runsEof hinv heof hr h
  have hshown : r'.wsel = frontHalf r'.frame := by
    rw [hwsel, hframe, hpunctual r hr, backHalf_eq_frontHalf_succ]
  refine ⟨r', hr', hshown, fun x y col hmax hbase _ hin => ?_⟩
  obtain ⟨-, hstores, -, -⟩ := (stepKeepsTheInvariant s s' hinv h).ready r' hr'
  have hcfg : s'.cfg = s.cfg := configurationIsImmutable s s' h
  rw [← hcfg, ← hstd] at hin ⊢
  rw [← hcfg] at hmax hbase
  obtain ⟨fb, hdraw, -, hpixel⟩ := execPixsd_of_inRange hr' hstores (lowNibble col) hin
  rw [lowNibble_eq_ofNat, hshown] at hpixel
  exact ⟨_, (execTack_of_single x y hmax hbase).trans hdraw, hpixel, rfl, rfl, rfl⟩

end Sys2Proof.Machine
end

section
namespace Sys2Proof.Machine

open Sys2Proof

/-! ### Outcomes alike but for `BCAST` (R161) -/

/-- The state with `BCAST` set to `b`. -/
def State.withBcast (s : State) (b : Bool) : State := { s with bcast := b }

section WithBcast
variable (s : State) (b : Bool)

@[simp] theorem withBcast_cfg : (s.withBcast b).cfg = s.cfg := rfl
@[simp] theorem withBcast_session : (s.withBcast b).session = s.session := rfl
@[simp] theorem withBcast_fault : (s.withBcast b).fault = s.fault := rfl
@[simp] theorem withBcast_agenda : (s.withBcast b).agenda = s.agenda := rfl
@[simp] theorem withBcast_fetch : (s.withBcast b).fetch = s.fetch := rfl
@[simp] theorem withBcast_feederEnabled : (s.withBcast b).feederEnabled = s.feederEnabled := rfl

end WithBcast

/-- The meaning `f` does not depend on `BCAST`: with `BCAST` set to any value it answers alike but for `BCAST`. -/
def BcastBlind (f : State → Result) : Prop := ∀ (s : State) b, forgetBcast (f (s.withBcast b)) = forgetBcast (f s)

/-- An outcome like that of a next state is that state with some value of `BCAST`. -/
theorem eq_next_of_alike {R : Result} {t : State} (h : forgetBcast R = forgetBcast (.next t)) :
    ∃ b, R = .next (t.withBcast b) := by
  cases R with
  | next t' =>
    have hstate : t'.withBcast false = t.withBcast false := Host.Outcome.next.inj h
    have ht' : t' = t.withBcast t'.bcast :=
      calc t' = (t'.withBcast false).withBcast t'.bcast := rfl
        _ = (t.withBcast false).withBcast t'.bcast := by rw [hstate]
        _ = t.withBcast t'.bcast := rfl
    exact ⟨_, congrArg Host.Outcome.next ht'⟩
  | fault f => simp [forgetBcast] at h
  | refused q => simp [forgetBcast] at h

theorem eq_fault_of_alike {R : Result} {f : Fault} (h : forgetBcast R = forgetBcast (.fault f)) : R = .fault f := by
  cases R with
  | next t => simp [forgetBcast] at h
  | fault f' => exact h
  | refused q => simp [forgetBcast] at h

theorem eq_refused_of_alike {R : Result} {q : Refusal} (h : forgetBcast R = forgetBcast (.refused q)) :
    R = .refused q := by
  cases R with
  | next t => simp [forgetBcast] at h
  | fault f => simp [forgetBcast] at h
  | refused q' => exact h

/-- A branch on a condition free of `BCAST`. -/
theorem ite_alike {p : Prop} [Decidable p] {R R' S S' : Result} (hR : forgetBcast R' = forgetBcast R)
    (hS : forgetBcast S' = forgetBcast S) :
    forgetBcast (if p then R' else S') = forgetBcast (if p then R else S) := by
  split
  · exact hR
  · exact hS

/-! ### The shared operations -/

theorem bcastBlind_whenReady {g : State → Session → Result} (h : ∀ r, BcastBlind fun s => g s r) :
    BcastBlind fun s => s.whenReady (g s) := by
  intro s b
  dsimp only
  cases hr : s.session with
  | none => rw [whenReady_uninit _ hr, whenReady_uninit _ ((withBcast_session s b).trans hr)]
  | some r =>
    rw [whenReady_ready _ hr, whenReady_ready _ ((withBcast_session s b).trans hr)]
    exact h r s b

theorem bcastBlind_runLine (g : Cfg → Session → Option Session) : BcastBlind fun s => s.runLine (g s.cfg) := by
  intro s b
  simp only [State.runLine, withBcast_cfg, withBcast_session]
  split
  · rfl
  · split <;> rfl

theorem bcastBlind_editFb (r : Session) (a : Nat) (f : Byte → Byte) : BcastBlind fun s => s.editFb r a f := by
  intro s b
  simp only [State.editFb]
  split <;> rfl

theorem bcastBlind_writeSd (r : Session) (x y : Coord) (c : Nibble) : BcastBlind fun s => s.writeSd r x y c :=
  fun s b => ite_alike (bcastBlind_editFb r _ _ s b) rfl

theorem bcastBlind_writeDd (r : Session) (x y : Coord) (white : Bool) :
    BcastBlind fun s => s.writeDd r x y white :=
  fun s b => ite_alike (bcastBlind_editFb r _ _ s b) rfl

/-! ### The instructions -/

theorem bcastBlind_execInit (std : Std) (ok : Bool) : BcastBlind (execInit std ok) := by
  intro s b
  simp only [execInit, withBcast_cfg, withBcast_session]
  split
  · rfl
  · split
    · rfl
    · cases ok <;> rfl

theorem bcastBlind_execTack (x y : Coord) (col : Byte) : BcastBlind (execTack x y col) := by
  refine bcastBlind_whenReady fun r s b => ?_
  exact ite_alike rfl (ite_alike (bcastBlind_writeSd r x y _ s b) (bcastBlind_writeDd r x y _ s b))

theorem bcastBlind_execAct : BcastBlind execAct := by
  intro s b
  simp only [execAct, withBcast_cfg, withBcast_session]
  split
  · exact ite_alike rfl (bcastBlind_runLine Session.genAct s b)
  · exact bcastBlind_runLine Session.genAct s b

/-- No instruction depends on `BCAST`. -/
theorem bcastBlind_exec (i : Instr) : BcastBlind (exec i) := by
  cases i with
  | ss => exact bcastBlind_runLine Session.genSs
  | ls => exact bcastBlind_runLine Session.genLs
  | bk => exact bcastBlind_runLine Session.genBk
  | s2l => exact bcastBlind_runLine Session.genS2l
  | l2s => exact bcastBlind_runLine Session.genL2s
  | act => exact bcastBlind_execAct
  | eof => exact bcastBlind_runLine Session.genEof
  | init std ok => exact bcastBlind_execInit std ok
  | tack x y col => exact bcastBlind_execTack x y col
  | pixsd x y c => exact bcastBlind_whenReady fun r => bcastBlind_writeSd r x y c
  | pixdd0 x y => exact bcastBlind_whenReady fun r => bcastBlind_writeDd r x y false
  | pixdd1 x y => exact bcastBlind_whenReady fun r => bcastBlind_writeDd r x y true
  | deinit | start | stop | getFrame | getWidth | getHeight | getBack =>
    exact bcastBlind_whenReady fun _ _ _ => rfl

/-! ### The turns (R50, R122, R124) -/

theorem bcastBlind_dmaStep : BcastBlind State.dmaStep := by
  intro s b
  simp only [State.dmaStep, withBcast_session]
  split
  · rfl
  · split <;> rfl

theorem bcastBlind_leaveFeeder : BcastBlind State.leaveFeeder := by
  intro t b
  simp only [State.leaveFeeder, withBcast_cfg, withBcast_session]
  split
  · rfl
  · exact ite_alike rfl rfl

/-- The end of a feeder step makes alike outcomes of alike outcomes. -/
theorem finishFeeder_alike (s : State) (b : Bool) {R R' : Result} (h : forgetBcast R' = forgetBcast R) :
    forgetBcast ((s.withBcast b).finishFeeder R') = forgetBcast (s.finishFeeder R) := by
  cases R with
  | next t =>
    obtain ⟨b', rfl⟩ := eq_next_of_alike h
    simp only [State.finishFeeder, withBcast_fault]
    split
    · rfl
    · exact bcastBlind_leaveFeeder t b'
  | fault f =>
    rw [eq_fault_of_alike h]
    rfl
  | refused q =>
    rw [eq_refused_of_alike h]
    rfl

theorem bcastBlind_feederStep : BcastBlind State.feederStep := by
  intro s b
  simp only [State.feederStep, withBcast_fetch]
  split
  next => rfl
  next i buf _ => exact finishFeeder_alike s b (bcastBlind_exec i (s.enterFeeder buf) b)
  next => rfl
  next => rfl

theorem bcastBlind_hostStep (c : Command) : BcastBlind fun s => s.hostStep c := by
  intro s b
  simp only [State.hostStep]
  split
  · exact bcastBlind_exec _ s b
  · rfl

/-- The schedule does not read `BCAST`. -/
theorem nextTurn_withBcast (s : State) (b : Bool) :
    (s.withBcast b).nextTurn = (s.nextTurn.1, s.nextTurn.2.withBcast b) := by
  cases ha : s.agenda with
  | cons turn rest =>
    rw [nextTurn_cons ha, nextTurn_cons ((withBcast_agenda s b).trans ha)]
    rfl
  | nil =>
    have ha' := (withBcast_agenda s b).trans ha
    cases he : s.feederEnabled with
    | false => rw [nextTurn_free_idle ha he, nextTurn_free_idle ha' ((withBcast_feederEnabled s b).trans he)]
    | true =>
      rw [nextTurn_free_enabled ha he, nextTurn_free_enabled ha' ((withBcast_feederEnabled s b).trans he)]
      rfl

/-- `BCAST` chooses no turn, and no turn depends on it. -/
theorem bcastBlind_step : BcastBlind step := by
  intro s b
  obtain ⟨turn, t, hturn⟩ : ∃ turn t, s.nextTurn = (turn, t) := ⟨_, _, rfl⟩
  rw [step, step, nextTurn_withBcast, hturn]
  cases turn with
  | dma => exact bcastBlind_dmaStep t b
  | feeder => exact bcastBlind_feederStep t b
  | host c => exact bcastBlind_hostStep c t b

/-- Settles O54: the step is one of the meanings that do not depend on `BCAST`. -/
theorem notificationBitHasNoEffect : Obligations.NotificationBitHasNoEffect := bcastBlind_step

end Sys2Proof.Machine
end

section
namespace Sys2Proof.Machine

open Sys2Proof

/-! ### Both agents complete from a good state (R122, R124) -/

section Agents
variable {s : State}

theorem State.Inv.dmaStep_completes (h : s.Inv) : ∃ s', s.dmaStep = .next s' := by
  cases hr : s.session with
  | none => exact ⟨s, dmaStep_uninit hr⟩
  | some r =>
    obtain ⟨-, hstores, -, -⟩ := h.ready r hr
    obtain ⟨line, hline, -⟩ := hstores.exists_txiLine
    exact ⟨_, dmaStep_ready hr hline⟩

/-- A feeder turn passes where nothing is pending, else the line of the slot fills the released buffer. -/
theorem State.Inv.feederStep_completes (h : s.Inv) : ∃ s', s.feederStep = .next s' := by
  cases hp : s.pend with
  | nil => exact ⟨s, feederStep_disabled (feederEnabled_eq_false (.inr (.inl hp)))⟩
  | cons b pend =>
    cases hr : s.session with
    | none =>
      obtain ⟨-, -, hempty, -⟩ := h.uninit hr
      cases hp.symm.trans hempty
    | some r =>
      obtain ⟨code, i, levels, hcode, hi, hlevels⟩ := h.exists_line hr
      exact ⟨_, h.feederStep_eq hr hp hcode hi hlevels⟩

end Agents

/-! ### Host commands complete or are refused (R153, R165, R172) -/

/-- The command port carries host commands only (R63). -/
theorem isCommand_of_decodeCommand {c : Command} {i : Instr} (h : decodeCommand c = some i) :
    i.isCommand = true := by
  unfold decodeCommand at h
  split at h <;> cases h <;> rfl

section Commands
variable {s : State} {r : Session} {x y : Coord}

theorem writeSd_completes (hstores : r.Stores s.cfg) (c : Nibble) : ∃ t, s.writeSd r x y c = .next t := by
  cases hin : inRange (s.cfg.profile r.std) (s.cfg.profile r.std).fbw2 x y with
  | false => exact ⟨s, writeSd_of_outside c hin⟩
  | true =>
    obtain ⟨b, -, hwrite⟩ := writeSd_of_inside hstores hin
    exact ⟨_, hwrite c⟩

theorem writeDd_completes (hstores : r.Stores s.cfg) (white : Bool) : ∃ t, s.writeDd r x y white = .next t := by
  cases hin : inRange (s.cfg.profile r.std) (s.cfg.profile r.std).fbw x y with
  | false => exact ⟨s, writeDd_of_outside white hin⟩
  | true =>
    obtain ⟨b, -, hwrite⟩ := writeDd_of_inside hstores hin
    exact ⟨_, hwrite white⟩

theorem execTack_completes (hr : s.session = some r) (hstores : r.Stores s.cfg) (x y : Coord) (col : Byte) :
    ∃ t, exec (.tack x y col) s = .next t := by
  obtain hmax | hmax := Nat.lt_or_ge s.cfg.maxCol col.toNat
  · exact ⟨s, execTack_of_invalid x y hr hmax⟩
  obtain hcol | hcol := Nat.lt_or_ge col.toNat s.cfg.ddBase
  · obtain ⟨t, ht⟩ := writeSd_completes (x := x) (y := y) hstores (lowNibble col)
    exact ⟨t, (execTack_of_single x y hmax hcol).trans ((exec_pixsd hr x y _).trans ht)⟩
  · obtain ⟨t, ht⟩ := writeDd_completes (x := x) (y := y) hstores (decide (col.toNat = s.cfg.ddWhite))
    exact ⟨t, (execTack_of_double x y hmax hcol rfl).trans ((whenReady_ready _ hr).trans ht)⟩

/-- `INIT` is refused in `READY` and on an ill-formed configuration, and answers otherwise. -/
theorem execInit_ne_fault (std : Std) (ok : Bool) (f : Fault) : exec (.init std ok) s ≠ .fault f := by
  intro h
  cases hr : s.session with
  | some r => cases (execInit_ready hr std ok).symm.trans h
  | none =>
    cases hv : s.cfg.violation std with
    | some w => cases (execInit_of_violation ok hr hv).symm.trans h
    | none =>
      obtain ⟨t, ht⟩ := execInit_of_wellFormed ok hr hv
      cases ht.symm.trans h

/-- A command that answers every session is at most refused. -/
theorem whenReady_ne_fault (u : Session → State) (f : Fault) : s.whenReady (fun r => .next (u r)) ≠ .fault f := by
  intro h
  cases hr : s.session with
  | none => cases (whenReady_uninit _ hr).symm.trans h
  | some r => cases (whenReady_ready _ hr).symm.trans h

/-- From a good state no host command ends in a fault: only `TACK` accesses a store, and there the byte exists. -/
theorem State.Inv.command_ne_fault {i : Instr} (h : s.Inv) (hi : i.isCommand = true) (f : Fault) :
    exec i s ≠ .fault f := by
  cases i
  case init std ok => exact execInit_ne_fault std ok f
  case tack x y col =>
    intro hfault
    cases hr : s.session with
    | none => cases (whenReady_uninit _ hr).symm.trans hfault
    | some r =>
      obtain ⟨-, hstores, -, -⟩ := h.ready r hr
      obtain ⟨t, ht⟩ := execTack_completes hr hstores x y col
      cases ht.symm.trans hfault
  case deinit | start | stop | getFrame | getWidth | getHeight | getBack => exact whenReady_ne_fault _ f
  all_goals cases hi

theorem State.Inv.hostStep_ne_fault (h : s.Inv) (c : Command) (f : Fault) : s.hostStep c ≠ .fault f := by
  unfold State.hostStep
  split
  · rename_i i hi
    exact h.command_ne_fault (isCommand_of_decodeCommand hi) f
  · nofun

end Commands

/-- Settles O44: both agents complete from a good state, and a host command completes or is refused. -/
theorem goodStatesNeverFault : Obligations.GoodStatesNeverFault := by
  intro s h
  obtain ⟨turn, t, hturn⟩ : ∃ turn t, s.nextTurn = (turn, t) := ⟨_, _, rfl⟩
  have ht : t.Inv := inv_nextTurn h hturn
  cases turn with
  | dma =>
    obtain ⟨s', hs'⟩ := ht.dmaStep_completes
    rw [step_of_dma hturn, hs']
    exact ⟨nofun, nofun⟩
  | feeder =>
    obtain ⟨s', hs'⟩ := ht.feederStep_completes
    rw [step_of_feeder hturn, hs']
    exact ⟨nofun, nofun⟩
  | host c =>
    obtain ⟨rest, ha, -⟩ := nextTurn_host hturn
    rw [step, hturn]
    exact ⟨ht.hostStep_ne_fault c, fun _ _ => ⟨c, rest, ha⟩⟩

end Sys2Proof.Machine
end

section
namespace Sys2Proof.Machine

open Sys2Proof

/-! ### A fault is recorded alone (R99, R109, R171) -/

/-- A code that decodes to nothing is one of 7 to 15 (R70). -/
theorem seven_le_of_decodeLine_none {code : Nibble} (h : decodeLine code = none) : 7 ≤ code.toNat := by
  revert code
  decide

/-- A feeder turn that records a fault changes nothing else. -/
theorem feederStep_fault_eq_raise {s s' : State} {q : FaultReason} (hs : s.fault = none)
    (h : s.feederStep = .next s') (hq : s'.fault = some q) : s' = s.raise q := by
  obtain ⟨-, rfl⟩ | ⟨-, q', rfl⟩ | ⟨i, b, r, r', -, -, -, -, -, rfl⟩ := feederStep_next h
  · cases hs.symm.trans hq
  · cases hq
    rfl
  · cases hs.symm.trans hq

/-! ### Host commands with a fault recorded (R171) -/

/-- Where the meaning `f` answers, it answers the same with a fault recorded before it, and keeps that fault. -/
def FaultBlind (f : State → Result) : Prop := ∀ s t q, f s = .next t → f (s.raise q) = .next (t.raise q)

/-- A meaning that only sets other fields. -/
theorem faultBlind_next {u : State → State} (h : ∀ s q, u (s.raise q) = (u s).raise q) :
    FaultBlind fun s => .next (u s) := by
  rintro s t q ⟨⟩
  exact congrArg Host.Outcome.next (h s q)

/-- A branch on a condition free of `STATUS.FAULT`. -/
theorem ite_next_imp {p : Prop} [Decidable p] {R R' S S' : Result} {t t' : State} (hR : R = .next t → R' = .next t')
    (hS : S = .next t → S' = .next t') (h : (if p then R else S) = .next t) : (if p then R' else S') = .next t' := by
  split at h
  next hp => rw [if_pos hp, hR h]
  next hp => rw [if_neg hp, hS h]

theorem faultBlind_whenReady {g : State → Session → Result} (h : ∀ r, FaultBlind fun s => g s r) :
    FaultBlind fun s => s.whenReady (g s) := by
  intro s t q hs
  obtain ⟨r, hr, hg⟩ := whenReady_next hs
  exact (whenReady_ready _ hr).trans (h r s t q hg)

theorem faultBlind_editFb (r : Session) (a : Nat) (f : Byte → Byte) : FaultBlind fun s => s.editFb r a f := by
  intro s t q hs
  obtain ⟨b, hb, rfl⟩ := editFb_next hs
  exact editFb_eq f hb

theorem faultBlind_discard : FaultBlind fun s => .next s := faultBlind_next fun _ _ => rfl

theorem faultBlind_writeSd (r : Session) (x y : Coord) (c : Nibble) : FaultBlind fun s => s.writeSd r x y c :=
  fun s t q => ite_next_imp (faultBlind_editFb r _ _ s t q) (faultBlind_discard s t q)

theorem faultBlind_writeDd (r : Session) (x y : Coord) (white : Bool) :
    FaultBlind fun s => s.writeDd r x y white :=
  fun s t q => ite_next_imp (faultBlind_editFb r _ _ s t q) (faultBlind_discard s t q)

theorem faultBlind_execTack (x y : Coord) (col : Byte) : FaultBlind (execTack x y col) :=
  faultBlind_whenReady fun r s t q => ite_next_imp (faultBlind_discard s t q)
    (ite_next_imp (faultBlind_writeSd r x y _ s t q) (faultBlind_writeDd r x y _ s t q))

/-- No host command but `INIT` reads or writes `STATUS.FAULT`. -/
theorem faultBlind_command {i : Instr} (hi : i.isCommand = true) (hinit : ∀ std ok, i ≠ .init std ok) :
    FaultBlind (exec i) := by
  cases i
  case init std ok => exact absurd rfl (hinit std ok)
  case tack x y col => exact faultBlind_execTack x y col
  case deinit | start | stop | getFrame | getWidth | getHeight | getBack =>
    exact faultBlind_whenReady fun _ => faultBlind_next fun _ _ => rfl
  all_goals cases hi

/-! ### What clears a fault (R171, R153) -/

/-- Of the host commands only an `INIT` that answers status 0 touches `STATUS.FAULT`. -/
theorem command_fault {c : Command} {i : Instr} {s s' : State} (hi : decodeCommand c = some i)
    (h : exec i s = .next s') :
    s'.fault = s.fault ∨ ∃ std, i = .init std true ∧ s.session = none := by
  obtain ⟨std, ok, rfl, hs, -, ⟨rfl, -⟩ | ⟨-, rfl⟩⟩ | ⟨r, -, ⟨-, rfl⟩ | ⟨v, -, rfl⟩ |
    ⟨x, y, col, -, rfl | ⟨a, v, -, rfl⟩⟩ | ⟨v, -, rfl⟩ | ⟨-, v, rfl⟩⟩ := command_next hi h
  case inl.inl => exact .inr ⟨std, rfl, hs⟩
  all_goals exact .inl rfl

theorem nextTurn_fault {s t : State} {turn : Turn} (h : s.nextTurn = (turn, t)) : t.fault = s.fault := by
  rw [nextTurn_eq h]

theorem dmaStep_fault {s s' : State} (h : s.dmaStep = .next s') : s'.fault = s.fault := by
  obtain ⟨-, rfl⟩ | ⟨r, line, -, -, rfl⟩ := dmaStep_next h <;> rfl

/-- With a fault recorded a feeder turn passes. -/
theorem feederStep_of_fault {s : State} {q : FaultReason} (hq : s.fault = some q) : s.feederStep = .next s :=
  feederStep_disabled (feederEnabled_eq_false (.inr (.inr (by simp [hq]))))

/-- A recorded fault stays, but for an `INIT` in `UNINIT` that answers status 0. -/
theorem step_fault {s s' : State} {q : FaultReason} (hq : s.fault = some q) (h : step s = .next s') :
    s'.fault = some q ∨
      ∃ c rest std, s.agenda = .host c :: rest ∧ decodeCommand c = some (.init std true) ∧ s.session = none := by
  obtain ⟨t, ⟨ht, hdma⟩ | ⟨ht, hfeeder⟩ | ⟨c, i, ht, hi, hx⟩⟩ := step_cases h
  all_goals have htq : t.fault = some q := (nextTurn_fault ht).trans hq
  · exact .inl ((dmaStep_fault hdma).trans htq)
  · cases (feederStep_of_fault htq).symm.trans hfeeder
    exact .inl htq
  · obtain ⟨rest, ha, -⟩ := nextTurn_host ht
    obtain hkept | ⟨std, rfl, hs⟩ := command_fault hi hx
    · exact .inl (hkept.trans htq)
    · exact .inr ⟨c, rest, std, ha, hi, (nextTurn_session ht).symm.trans hs⟩

/-- Settles O24: the causes are those of the two places that raise a fault; once it is recorded only the feeder's enable
reads it. -/
theorem faultStopsOnlyTheFeeder : Obligations.FaultStopsOnlyTheFeeder := by
  refine ⟨fun s s' q hs h hq => ⟨feederStep_fault_eq_raise hs h hq, ?_⟩, fun s q hq => ⟨?_, ?_, ?_, ?_⟩⟩
  · obtain ⟨r, code, hr, hcode, ⟨hreserved, rfl⟩ | ⟨hi, hrow, rfl⟩⟩ := feederStep_fault hs h hq
    · exact ⟨r, hr, .inl ⟨code, hcode, seven_le_of_decodeLine_none hreserved, rfl⟩⟩
    · obtain ⟨-, hact, -⟩ := decodeLine_effect_iff hi
      exact ⟨r, hr, .inr ⟨hact.mp rfl ▸ hcode, of_decide_eq_true hrow, rfl⟩⟩
  · exact feederEnabled_eq_false (.inr (.inr (by simp [hq])))
  · intro r line hr hline
    exact ⟨_, dmaStep_ready hr hline, rfl, hq, glitchAfter_eq_true_iff ..⟩
  · intro i t hi hinit hx
    have hraise : State.raise { s with fault := none } q = s := by rw [State.raise, ← hq]
    rw [← congrArg (exec i) hraise]
    exact faultBlind_command hi hinit _ t q hx
  · exact fun _ => step_fault hq

end Sys2Proof.Machine
end

section
namespace Sys2Proof.Machine

open Sys2Proof

/-! ### The code of a host command (R63) -/

theorem canonical_command_cmd (c : Command) : ∃ c', Item.canonical (.command c) = .command c' ∧ c'.cmd = c.cmd := by
  simp only [Item.canonical]
  split <;> exact ⟨_, rfl, rfl⟩

/-- A command that decodes has the code its instruction is encoded with. -/
theorem cmd_of_decodeCommand {c c' : Command} {i : Instr} (h : decodeCommand c = some i)
    (henc : encode i = .command c') : c.cmd = c'.cmd := by
  obtain ⟨c'', hcanonical, hcmd⟩ := canonical_command_cmd c
  cases henc.symm.trans ((encode_of_decodeCommand h).trans hcanonical)
  exact hcmd.symm

/-! ### Who writes `FB` and `WSEL` (R29, R184, R203) -/

section Writing
variable {s s' : State} {r r' : Session}

theorem dmaStep_fb_wsel (hr : s.session = some r) (h : s.dmaStep = .next s') (hr' : s'.session = some r') :
    r'.fb = r.fb ∧ r'.wsel = r.wsel := by
  obtain ⟨hs, -⟩ | ⟨r₀, line, hr₀, -, rfl⟩ := dmaStep_next h
  · cases hs.symm.trans hr
  · cases hr₀.symm.trans hr
    cases hr'
    exact ⟨rfl, rfl⟩

theorem feederStep_fb_wsel (hr : s.session = some r) (h : s.feederStep = .next s') (hr' : s'.session = some r') :
    r'.fb = r.fb ∧ r'.wsel = r.wsel := by
  obtain ⟨-, rfl⟩ | ⟨-, q, rfl⟩ | ⟨i, b, r₀, r₁, -, -, hr₀, heff, -, rfl⟩ := feederStep_next h
  · cases hr.symm.trans hr'
    exact ⟨rfl, rfl⟩
  · cases hr.symm.trans hr'
    exact ⟨rfl, rfl⟩
  · cases hr₀.symm.trans hr
    cases hr'
    obtain ⟨-, hwsel, -, -, hfb, -⟩ := lineEffect_frame heff
    exact ⟨hfb, hwsel⟩

/-- A host command within a session leaves `FB` unless it is `TACK`, and `WSEL` unless it is `GET_BACK`. -/
theorem command_fb_wsel {c : Command} {i : Instr} (hr : s.session = some r) (hi : decodeCommand c = some i)
    (h : exec i s = .next s') (hr' : s'.session = some r') :
    (r'.fb = r.fb ∨ c.cmd = 4#4) ∧ (r'.wsel = r.wsel ∨ c.cmd = 8#4) := by
  have unchanged : s'.session = s.session → (r'.fb = r.fb ∨ c.cmd = 4#4) ∧ (r'.wsel = r.wsel ∨ c.cmd = 8#4) := by
    intro hs
    cases hr'.symm.trans (hs.trans hr)
    exact ⟨.inl rfl, .inl rfl⟩
  obtain ⟨std, ok, -, hs, -⟩ | ⟨r₀, hr₀, ⟨-, rfl⟩ | ⟨v, -, rfl⟩ | ⟨x, y, col, rfl, rfl | ⟨a, v, -, rfl⟩⟩ |
    ⟨v, -, rfl⟩ | ⟨rfl, v, rfl⟩⟩ := command_next hi h
  case inl => cases hs.symm.trans hr
  all_goals cases hr₀.symm.trans hr
  · cases hr'
  · exact unchanged rfl
  · exact unchanged rfl
  · cases hr'
    exact ⟨.inr (cmd_of_decodeCommand hi rfl), .inl rfl⟩
  · exact unchanged rfl
  · cases hr'
    exact ⟨.inl rfl, .inr (cmd_of_decodeCommand hi rfl)⟩

end Writing

/-- Settles O50, by the three kinds of turn. -/
theorem onlyTackWritesTheFramebuffer : Obligations.OnlyTackWritesTheFramebuffer := by
  intro s s' r r' hr h hr'
  obtain ⟨t, ⟨ht, hdma⟩ | ⟨ht, hfeeder⟩ | ⟨c, i, ht, hi, hx⟩⟩ := step_cases h
  all_goals have hrt : t.session = some r := (nextTurn_session ht).trans hr
  · obtain ⟨hfb, hwsel⟩ := dmaStep_fb_wsel hrt hdma hr'
    exact ⟨fun hne => absurd hfb hne, fun hne => absurd hwsel hne⟩
  · obtain ⟨hfb, hwsel⟩ := feederStep_fb_wsel hrt hfeeder hr'
    exact ⟨fun hne => absurd hfb hne, fun hne => absurd hwsel hne⟩
  · obtain ⟨rest, ha, -⟩ := nextTurn_host ht
    obtain ⟨hfb, hwsel⟩ := command_fb_wsel hrt hi hx hr'
    exact ⟨fun hne => ⟨c, rest, ha, hfb.resolve_left hne⟩, fun hne => ⟨c, rest, ha, hwsel.resolve_left hne⟩⟩

end Sys2Proof.Machine
end

section
namespace Sys2Proof.Machine

open Sys2Proof

/-! ### `UNINIT`: no agent moves and only `INIT` is accepted (R165, R190) -/

section Uninit
variable {s : State}

theorem dmaEnabled_uninit (hs : s.session = none) : s.dmaEnabled = false := by
  rw [State.dmaEnabled, State.inited, hs, Option.isSome_none]

/-- Every host command but `INIT` asks for a session first (R165). -/
theorem command_uninit {i : Instr} (hi : i.isCommand = true) (hinit : ∀ std ok, i ≠ .init std ok)
    (hs : s.session = none) : exec i s = .refused .wrongState := by
  cases i
  case init std ok => exact absurd rfl (hinit std ok)
  case deinit | start | stop | tack | getFrame | getWidth | getHeight | getBack => exact whenReady_uninit _ hs
  all_goals cases hi

end Uninit

/-- Settles O1: in a good `UNINIT` state the interrupt is disabled and `OUT` is empty, and every command but `INIT` asks
for a session. -/
theorem powerOnIsUninit : Obligations.PowerOnIsUninit := by
  refine ⟨⟨rfl, rfl, rfl, rfl, rfl, rfl, rfl⟩, dmaEnabled_uninit rfl, feederEnabled_eq_false (.inl rfl),
    fun s hinv hs => ?_⟩
  obtain ⟨hirq, -, -, hout⟩ := hinv.uninit hs
  exact ⟨dmaEnabled_uninit hs, feederEnabled_eq_false (.inl hirq), hout,
    fun _ _ hi hinit => command_uninit (isCommand_of_decodeCommand hi) hinit hs⟩

/-! ### Power-on is a good state -/

/-- At power-on both default tables are short enough for a 16-bit `SLN`, no fault is recorded, and without a session the
part of the invariant about `READY` asks nothing. -/
theorem reset_inv : State.reset.Inv where
  ntscTotal := show ntscProfile.total ≤ 32767 by decide
  palTotal := show palProfile.total ≤ 32767 by decide
  noFault := rfl
  uninit _ := ⟨rfl, rfl, rfl, rfl⟩
  ready _ hr := by cases hr

/-- Settles O42: `PEND` is empty at power-on, so ring order holds beside the invariant. -/
theorem resetIsGood : Obligations.ResetIsGood := ⟨reset_inv, ringOrder_of_empty rfl⟩

end Sys2Proof.Machine
end
